-- ==== Sys2Proof/Word.lean ====
section
/-! DEFINITION. The words of the machine: bytes, byte strings, blocks, the command word (spec/00_scope.md R5, R6). -/

namespace Sys2Proof

/-- A byte is an 8-bit unsigned value (R5). -/
abbrev Byte := BitVec 8

/-- A byte string, first byte first (R5). -/
abbrev Bytes := List Byte

/-- A 128-bit block, held as the integer `int(B)` of R6: byte 0 is the most significant byte. -/
abbrev Block := BitVec 128

/-- The command word WORD (R70, R71). -/
abbrev CmdWord := BitVec 32

/-- A 64-bit unsigned count: AAD_BITS, DATA_BITS, OUTCAP, RLEN (R26, R70, R75). -/
abbrev Count := BitVec 64

end Sys2Proof
end

