-- ==== Sys2Proof/Syntax.lean ====
section
/-! DEFINITION. The commands of the GCM engine, one constructor per row of spec/opcode_table.json (30_encoding.md R72). -/

namespace Sys2Proof

/-- MODE, WORD bit 4: 0 = GCM, 1 = GMAC (R71, R30). -/
inductive Mode where
  | gcm
  | gmac
  deriving DecidableEq, Repr

/-- DIR, WORD bit 5: 0 = encrypt, 1 = decrypt (R71, R20). -/
inductive Dir where
  | enc
  | dec
  deriving DecidableEq, Repr

/-- A decoded command. Only INIT has fields in WORD (R71); the operands A, B, KEY and OUTCAP travel with the command
as values (R73) and are read from the request being executed. -/
inductive Instr where
  /-- GFMUL (R106). -/
  | gfmul
  /-- INIT (R140), with MODE, DIR and TAGBITS; TAGBITS is a count of bits, 0 to 255 (R74). -/
  | init (mode : Mode) (dir : Dir) (tagBits : Nat)
  /-- ENC_UPDATE (R162). -/
  | encUpdate
  /-- ENC_FINAL (R165, R169). -/
  | encFinal
  /-- DEC_UPDATE (R190). -/
  | decUpdate
  /-- DEC_FINAL (R193). -/
  | decFinal
  /-- ABORT (R224). -/
  | abort
  deriving DecidableEq, Repr

end Sys2Proof
end

