-- ==== Sys2Proof/WellFormed.lean ====
section
/-! DEFINITION. Well-formed commands: the terms of `Instr` that a command word can carry. -/

namespace Sys2Proof

/-- TAGBITS fits the 8 bits of WORD[15:8] (R71, R74). Every such value decodes, and so does every MODE and DIR (R79):
whether INIT accepts them is INIT's own check (R141), not a question of form. -/
def tagBitsFit (tagBits : Nat) : Bool := decide (tagBits < 256)

/-- A command is well formed when its fields fit their places in WORD. -/
def Instr.wf : Instr → Bool
  | .gfmul => true
  | .init _ _ tagBits => tagBitsFit tagBits
  | .encUpdate => true
  | .encFinal => true
  | .decUpdate => true
  | .decFinal => true
  | .abort => true

end Sys2Proof
end

