-- ==== Sys2Proof/Decode.lean ====
section
/-! DEFINITION. Decoding and encoding the command word (spec/30_encoding.md R71 to R84). -/

namespace Sys2Proof

/-- Why a word is illegal: the line of R80's `decode` that rejects it. The engine answers every one with
ILLEGAL_COMMAND (R77, R78). -/
inductive DecodeError where
  /-- OPC is 0x0 or 0x8 to 0xF (R77). -/
  | reservedOpcode
  /-- RSV1 or RSV0 is not zero (R78). -/
  | reservedBits
  /-- TAGBITS is not zero outside INIT (R78). -/
  | tagBitsOutsideInit
  /-- MODE or DIR is not zero outside INIT (R78). -/
  | modeDirOutsideInit
  deriving DecidableEq, Repr

/-- OPC, WORD[3:0] (R71). -/
def fieldOpc (w : CmdWord) : Nat := (w.extractLsb' 0 4).toNat

/-- MODE, WORD[4] (R71). -/
def fieldMode (w : CmdWord) : Mode := if w.getLsbD 4 then .gmac else .gcm

/-- DIR, WORD[5] (R71). -/
def fieldDir (w : CmdWord) : Dir := if w.getLsbD 5 then .dec else .enc

/-- MODE and DIR together, WORD[5:4], as R80 tests them. -/
def fieldModeDir (w : CmdWord) : Nat := (w.extractLsb' 4 2).toNat

/-- RSV0, WORD[7:6] (R71). -/
def fieldRsv0 (w : CmdWord) : Nat := (w.extractLsb' 6 2).toNat

/-- TAGBITS, WORD[15:8], zero-extended (R71, R74). -/
def fieldTagBits (w : CmdWord) : Nat := (w.extractLsb' 8 8).toNat

/-- RSV1, WORD[31:16] (R71). -/
def fieldRsv1 (w : CmdWord) : Nat := (w.extractLsb' 16 16).toNat

/-- The opcode assignment of R72. -/
def instrOfOpc (w : CmdWord) : Nat → Except DecodeError Instr
  | 1 => .ok .gfmul
  | 2 => .ok (.init (fieldMode w) (fieldDir w) (fieldTagBits w))
  | 3 => .ok .encUpdate
  | 4 => .ok .encFinal
  | 5 => .ok .decUpdate
  | 6 => .ok .decFinal
  | 7 => .ok .abort
  | _ => .error .reservedOpcode

/-- `decode` of R80, total on all 2^32 words. -/
def decode (w : CmdWord) : Except DecodeError Instr :=
  if fieldOpc w = 0 ∨ 8 ≤ fieldOpc w then .error .reservedOpcode
  else if fieldRsv1 w ≠ 0 ∨ fieldRsv0 w ≠ 0 then .error .reservedBits
  else if fieldOpc w ≠ 2 ∧ fieldTagBits w ≠ 0 then .error .tagBitsOutsideInit
  else if fieldOpc w ≠ 2 ∧ fieldModeDir w ≠ 0 then .error .modeDirOutsideInit
  else instrOfOpc w (fieldOpc w)

/-- The instruction that a row of spec/opcode_table.json stands for: a row is one 32-bit word, bit 0 its least
significant bit (R71, R81). -/
def decodeTableWord (nbits w : Nat) : Option Instr :=
  if nbits ≤ 32 ∧ w < 2 ^ 32 then (decode (BitVec.ofNat 32 w)).toOption else none

/-- MODE's bit (R71). -/
def modeBit : Mode → Nat
  | .gcm => 0
  | .gmac => 1

/-- DIR's bit (R71). -/
def dirBit : Dir → Nat
  | .enc => 0
  | .dec => 1

/-- OPC of each command (R72). -/
def opcOf : Instr → Nat
  | .gfmul => 1
  | .init _ _ _ => 2
  | .encUpdate => 3
  | .encFinal => 4
  | .decUpdate => 5
  | .decFinal => 6
  | .abort => 7

/-- A field's value at its place in WORD. -/
def placeField (value lo : Nat) : CmdWord := BitVec.ofNat 32 value <<< lo

/-- The word of a well-formed command, from the layout of R71 and R82: OPC, and for INIT MODE, DIR and TAGBITS. -/
def encode : Instr → CmdWord
  | .gfmul => placeField (opcOf .gfmul) 0
  | .init mode dir tagBits =>
      placeField (opcOf (.init mode dir tagBits)) 0 ||| placeField (modeBit mode) 4 ||| placeField (dirBit dir) 5
        ||| placeField tagBits 8
  | .encUpdate => placeField (opcOf .encUpdate) 0
  | .encFinal => placeField (opcOf .encFinal) 0
  | .decUpdate => placeField (opcOf .decUpdate) 0
  | .decFinal => placeField (opcOf .decFinal) 0
  | .abort => placeField (opcOf .abort) 0

end Sys2Proof
end

