-- ==== Sys2Proof/Config.lean ====
section
/-! DEFINITION. The engine's implementation parameters (spec/00_scope.md R4). Those the spec leaves OPEN are opaque: no
proof can see a value of them. -/

namespace Sys2Proof

/-- Which numbers beside 0 stand for a key schedule of this platform: OPEN (R4; log 6). -/
opaque Config.furtherKey : Nat → Bool

/-- A key schedule. The spec leaves the type opaque and owned by the caller (R4, R31, U10), and so does the model: a key
schedule has no contents here, only a number to tell it from the others, so that State stays plain data. How many there
are is OPEN, at least one, and what one does is `Config.E`'s alone. DESIGN CHOICE of the numbers (log 6). -/
structure KeySched where
  number : Nat
  isKey : number = 0 ∨ Config.furtherKey number = true
  deriving DecidableEq, Repr

/-- The key schedule with number 0. It stands where a KEY operand is ignored (R73), in the request before
the first, in a word placed from outside, and in a `.raw` line (logs 2, 17, 19). -/
def KeySched.first : KeySched := ⟨0, .inl rfl⟩

/-- The type of the block-cipher collaborator `E(k, in) -> out` (R10). -/
abbrev Cipher := KeySched → Block → Block

/-- The block-cipher collaborator: total, deterministic, and OPEN (R4, R10, D38). -/
opaque Config.E : Cipher

/-- Whether the accelerated multiplier exists: OPEN, fixed for the life of the platform (R4, D7). -/
opaque Config.ACCEL_PRESENT : Bool

/-- The largest PT_BUF in bytes: OPEN (R4, D10). -/
opaque Config.PT_BUF_CAP : Nat

/-- How many instances the platform has beyond the first (R4, D32). -/
opaque Config.furtherInstances : Nat

/-- `N_INST`, the number of engine instances: OPEN, at least 1 (R4, D32). -/
def Config.N_INST : Nat := Config.furtherInstances + 1

/-- `LEN_LIMIT_BITS` = 2^64 - 1 (R4, D29). -/
def Config.lenLimitBits : Nat := 2 ^ 64 - 1

/-- `TAG_BITS_SET` (R4, R141, C2). -/
def Config.tagBitsSet : List Nat := [32, 64, 96, 104, 112, 120, 128]

end Sys2Proof
end

