-- ==== Sys2Proof/Machine/State.lean ====
section
/-! DEFINITION. The state of the GCM engine (spec/10_state.md), the host's requests and the engine's responses
(30_encoding.md R70, R75, R76), and the state after reset (70_reset_and_hazards.md R270, R271). -/

namespace Sys2Proof.Machine

/-- PHASE (R20, R22). -/
inductive Phase where
  | idle
  | active
  | fault
  deriving DecidableEq, Repr

/-- CAP_STATE (R32). -/
inductive CapState where
  | unprobed
  | ref
  | accel
  deriving DecidableEq, Repr

/-- The context registers that can hold no value (R11, R270). -/
inductive Reg where
  | mode
  | dir
  | key
  | h
  | y
  | cb
  | j0
  | aadBits
  | dataBits
  | tagLen
  deriving DecidableEq, Repr

/-- The context registers of one instance (R20). `none` is the spec's ⊥, "no value" (R11): the register has not been
written since reset or since the context was released. -/
structure Context where
  phase : Phase
  mode : Option Mode
  dir : Option Dir
  key : Option KeySched
  h : Option Block
  y : Option Block
  cb : Option Block
  j0 : Option Block
  aadBits : Option Count
  dataBits : Option Count
  tagLen : Option (BitVec 5)
  /-- REM, plaintext bytes that await more input (R28). -/
  rem : Bytes
  /-- PT_BUF, every ciphertext-and-tag byte received (R29). -/
  ptBuf : Bytes
  deriving DecidableEq, Repr

/-- The command record (R70). -/
structure Command where
  word : CmdWord
  a : Bytes
  b : Bytes
  key : KeySched
  outcap : Count
  deriving DecidableEq, Repr

/-- How the host's output buffer lies against one of its input buffers (R57, R276). -/
inductive Overlap where
  /-- The buffers are apart. -/
  | separate
  /-- Exact in-place: the same starting address (R57). -/
  | inPlace
  /-- They overlap at a different offset: the case a model refuses (R57, R276, D24). -/
  | shifted
  deriving DecidableEq, Repr

/-- What the host hands over with one command: the record, the instance it goes to (R70, R256), the outcome of the
allocation draw if the command takes one (R4, D10), and how its output buffer lies against each of its input buffers. R57
speaks of A's buffer only, R276, D24 and U4 of any input buffer, so B's counts too: DEDUCED (log 4). -/
structure Request where
  inst : Nat
  cmd : Command
  allocOk : Bool
  /-- OUT against the buffer that held A (R57). -/
  overlapA : Overlap
  /-- OUT against the buffer that held B (R276, D24, U4; log 4). -/
  overlapB : Overlap
  deriving DecidableEq, Repr

/-- What the outside world can do to the engine: issue a command, reset one instance, reset the platform
(R70, R270, R271). -/
inductive HostEvent where
  | command (r : Request)
  | resetInstance (n : Nat)
  | resetPlatform
  deriving DecidableEq, Repr

/-- The status codes (R76). -/
inductive Status where
  | ok
  | paramInvalid
  | resourceExhausted
  | lengthRange
  | authFailure
  | internalConsistency
  | illegalCommand
  | sequenceError
  | dataLenRange
  deriving DecidableEq, Repr

/-- The response (R75). -/
structure Response where
  status : Status
  out : Bytes
  rlen : Count
  deriving DecidableEq, Repr

/-- The platform's parameters, fixed for its life (R4, R272). No step writes them. -/
structure Platform where
  accelPresent : Bool
  ptBufCap : Nat
  deriving DecidableEq, Repr

/-- Why the machine stops with a fault. -/
inductive Fault where
  /-- A command read register `r` while it holds ⊥ (R11: "A model must treat any such read as a fault, not as
  zero"; D22; U14). Raised by `need`. SAFE: no state that a run from reset reaches raises it. -/
  | noValue (r : Reg)
  deriving DecidableEq, Repr

/-- Why the model gives a command no meaning. -/
inductive Refusal where
  /-- An instruction not modelled yet, by its mnemonic. Raised by `exec`'s own arms only. SAFE. -/
  | notModelled (mnemonic : String)
  /-- A bit count would pass LEN_LIMIT_BITS (R58, R12). Raised by INIT, ENC_UPDATE, DEC_UPDATE. SAFE. -/
  | lengthLimit
  /-- The host lets OUT overlap an input the command reads at a different offset: A or B for GFMUL, A for ENC_UPDATE
  (R57, R276, R12, D24; log 4). Raised by these two when they would emit bytes. SAFE. -/
  | partialOverlap
  /-- The request names an instance the platform does not have (R256; log 5). Raised by every command. SAFE. -/
  | noSuchInstance
  deriving DecidableEq, Repr

/-- The whole machine: the context of every instance (R256), the shared CAP_STATE (R32), the platform's parameters (R4),
and the command channel: the host events still to come, the request being executed, the responses given. -/
structure State where
  insts : List Context
  capState : CapState
  plat : Platform
  /-- Host events not yet taken, oldest first (R61; log 2). -/
  inbox : List HostEvent
  /-- The request being executed (R70; log 2). -/
  req : Request
  /-- Responses given, oldest first, each with the instance that gave it (R75; log 2). -/
  outbox : List (Nat × Response)
  deriving DecidableEq, Repr

/-- Reset state of an instance (R270); also what a release leaves (R171, R224). -/
def Context.reset : Context where
  phase := .idle
  mode := none
  dir := none
  key := none
  h := none
  y := none
  cb := none
  j0 := none
  aadBits := none
  dataBits := none
  tagLen := none
  rem := []
  ptBuf := []

/-- A request to instance 0 with empty operands, the first key schedule and no output space (log 17). -/
def Request.empty : Request where
  inst := 0
  cmd := { word := 0, a := [], b := [], key := KeySched.first, outcap := 0 }
  allocOk := true
  overlapA := .separate
  overlapB := .separate

/-- Reset of the platform (R270, R271). The parameters are OPEN (R4). -/
def State.reset : State where
  insts := Context.reset :: List.replicate Config.furtherInstances Context.reset
  capState := .unprobed
  plat := { accelPresent := Config.ACCEL_PRESENT, ptBufCap := Config.PT_BUF_CAP }
  inbox := []
  req := Request.empty
  outbox := []

end Sys2Proof.Machine
end

