-- ==== Sys2Proof/Machine/Ops.lean ====
section
/-! DEFINITION. The operations every command shares: reading and writing the addressed context, responding, `raise`,
`release`, capability resolution, and taking the host's next event. -/

namespace Sys2Proof.Machine

/-- What a meaning answers. -/
abbrev Result := Host.Outcome State Fault Refusal

/-- The codes of STATUS (R76). -/
def Status.code : Status → BitVec 8
  | .ok => 0x00
  | .paramInvalid => 0x01
  | .resourceExhausted => 0x02
  | .lengthRange => 0x03
  | .authFailure => 0x04
  | .internalConsistency => 0x05
  | .illegalCommand => 0x06
  | .sequenceError => 0x07
  | .dataLenRange => 0x08

/-- The codes of PHASE (10_state.md, R22). The value 3 is never written. -/
def Phase.code : Phase → BitVec 2
  | .idle => 0
  | .active => 1
  | .fault => 2

/-- The codes of CAP_STATE (10_state.md, R32). -/
def CapState.code : CapState → BitVec 2
  | .unprobed => 0
  | .ref => 1
  | .accel => 2

/-- The context of the instance the request goes to, if the platform has that instance (R256). -/
def State.ctx? (s : State) : Option Context := s.insts[s.req.inst]?

/-- Run a command's rule on the addressed context (R70, R256). -/
def State.withCtx (s : State) (k : Context → Result) : Result :=
  match s.ctx? with
  | some c => k c
  | none => .refused .noSuchInstance

/-- Write the addressed context. -/
def State.setCtx (s : State) (c : Context) : State := { s with insts := s.insts.set s.req.inst c }

/-- Read a context register: a fault while it holds ⊥, as the spec states (R11, D22, U14). -/
def need {α : Type} (r : Reg) (v : Option α) (k : α → Result) : Result :=
  match v with
  | some a => k a
  | none => .fault (.noValue r)

/-- Return the one response of the command (R75). -/
def State.respond (s : State) (r : Response) : State := { s with outbox := s.outbox ++ [(s.req.inst, r)] }

/-- `raise S(info)`: the command ends with status S, an empty OUT, and no register written (R9, R226, R241). -/
def State.raise (s : State) (status : Status) (rlen : Count := 0) : Result := .next (s.respond ⟨status, [], rlen⟩)

/-- End a command with OK, the addressed context written and the emitted bytes returned; RLEN = 0 (R75, R226). -/
def State.finish (s : State) (c : Context) (out : Bytes) : Result := .next ((s.setCtx c).respond ⟨.ok, out, 0⟩)

/-- End a command with an error that does write the context: AUTH_FAILURE and INTERNAL_CONSISTENCY (R241). -/
def State.raiseWith (s : State) (c : Context) (status : Status) : Result :=
  .next ((s.setCtx c).respond ⟨status, [], 0⟩)

/-- `release()`: IDLE, the buffers empty, every other register ⊥ (R171, R224). -/
def release : Context := Context.reset

/-- The value CAP_STATE takes when it is resolved (R225). -/
def Platform.capability (p : Platform) : CapState := if p.accelPresent then .accel else .ref

/-- `resolve_capability()` (R225). -/
def State.resolveCapability (s : State) : State :=
  if s.capState = .unprobed then { s with capState := s.plat.capability } else s

/-- What a word that decode rejects does: ILLEGAL_COMMAND, nothing changed (R77, R78, R223). -/
def State.illegalCommand (s : State) : Result := s.withCtx fun _ => s.raise .illegalCommand

/-- Reset one instance: its context goes to the reset state, CAP_STATE stays (R270, R271). -/
def State.resetInstance (s : State) (n : Nat) : State := { s with insts := s.insts.set n Context.reset }

/-- Reset the platform: every context, and CAP_STATE (R270, R271). The parameters and the channel stay. -/
def State.resetPlatform (s : State) : State :=
  { s with insts := s.insts.map fun _ => Context.reset, capState := .unprobed }

/-- Take a request for execution: it leaves the inbox and becomes the request being executed (R220). -/
def State.accept (s : State) (r : Request) (rest : List HostEvent) : State := { s with inbox := rest, req := r }

/-- What the next step has to do. -/
inductive Taken where
  /-- Nothing is pending. -/
  | idle
  /-- Execute the command of `s.req`. -/
  | run (s : State)
  /-- The event is dealt with. -/
  | done (s : State)

/-- Take the host's oldest event (R61). -/
def takeEvent (s : State) : Taken :=
  match s.inbox with
  | [] => .idle
  | .command r :: rest => .run (s.accept r rest)
  | .resetInstance n :: rest => .done (State.resetInstance { s with inbox := rest } n)
  | .resetPlatform :: rest => .done (State.resetPlatform { s with inbox := rest })

/-- The events with WORD `w` as the oldest pending command: the word of the pending request, its operands kept, or a new
request with empty operands when none is pending. -/
def placeWord (w : CmdWord) : List HostEvent → List HostEvent
  | .command r :: rest => .command { r with cmd := { r.cmd with word := w } } :: rest
  | events => .command { Request.empty with cmd := { Request.empty.cmd with word := w } } :: events

end Sys2Proof.Machine
end

