-- ==== Sys2Proof/Machine/Operands.lean ====
section
/-! DEFINITION. The operands of a command and the checks on them (spec/30_encoding.md R73, R74; 20_memory.md R57, R58). -/

namespace Sys2Proof.Machine

/-- Operand A: x, the IV, plaintext, or ciphertext and tag (R73). -/
def State.opA (s : State) : Bytes := s.req.cmd.a

/-- Operand B: y or the AAD (R73). -/
def State.opB (s : State) : Bytes := s.req.cmd.b

/-- The KEY operand (R73). -/
def State.opKey (s : State) : KeySched := s.req.cmd.key

/-- OUTCAP, an unsigned 64-bit count of bytes (R73, R74). -/
def State.outcap (s : State) : Nat := s.req.cmd.outcap.toNat

/-- The allocation draw of this command (R4, D10). -/
def State.allocOk (s : State) : Bool := s.req.allocOk

/-- The host's OUT buffer overlaps A's at a different offset (R57). -/
def State.shiftedA (s : State) : Bool := s.req.overlapA == .shifted

/-- The host's OUT buffer overlaps B's at a different offset (R276, D24, U4; log 4). -/
def State.shiftedB (s : State) : Bool := s.req.overlapB == .shifted

/-- A bit count passes LEN_LIMIT_BITS (R58). -/
def overLimit (bits : Nat) : Bool := decide (Config.lenLimitBits < bits)

/-- TAGBITS is one of TAG_BITS_SET (R74, R141). -/
def tagBitsLegal (tagBits : Nat) : Bool := Config.tagBitsSet.contains tagBits

/-- `TAG_LEN <- tb / 8` (R27, R74). -/
def tagLenOf (tagBits : Nat) : BitVec 5 := BitVec.ofNat 5 (tagBits / 8)

/-- A size in bytes as RLEN (R75). -/
def rlenOf (n : Nat) : Count := BitVec.ofNat 64 n

end Sys2Proof.Machine
end

