-- ==== Sys2Proof/Machine/Flags.lean ====
section
/-! DEFINITION. The engine has no flags and no condition codes (spec/10_state.md R33). What a command tests before it
runs is PHASE, MODE and DIR: the guards of 45_control.md R220, R221, in the order of each command's own first line. -/

namespace Sys2Proof.Machine

/-- `if PHASE != IDLE: raise SEQUENCE_ERROR()` (R140). -/
def State.requireIdle (s : State) (c : Context) (k : Result) : Result :=
  if c.phase = .idle then k else s.raise .sequenceError

/-- `if PHASE != ACTIVE or DIR != dir: raise SEQUENCE_ERROR()` (R165, R190, R193). -/
def State.requireActive (s : State) (c : Context) (dir : Dir) (k : Result) : Result :=
  if c.phase = .active then need .dir c.dir fun d => if d = dir then k else s.raise .sequenceError
  else s.raise .sequenceError

/-- `if PHASE != ACTIVE or DIR != ENC or MODE != GCM: raise SEQUENCE_ERROR()` (R162). -/
def State.requireStream (s : State) (c : Context) (k : Result) : Result :=
  s.requireActive c .enc (need .mode c.mode fun m => if m = .gcm then k else s.raise .sequenceError)

end Sys2Proof.Machine
end

