-- ==== Sys2Proof/Machine/Control.lean ====
section
/-! DEFINITION. ABORT (spec/45_control.md R224). -/

namespace Sys2Proof.Machine

/-- ABORT: legal in every phase, releases the context, always OK (R224). -/
def execAbort (s : State) : Result := s.withCtx fun _ => s.finish release []

end Sys2Proof.Machine
end

