-- ==== Sys2Proof/Machine/Bytes.lean ====
section
/-! DEFINITION. Byte strings and blocks: the notation of spec/00_scope.md R5, R6, R8, R9 and the byte order of
20_memory.md R51 to R53. -/

namespace Sys2Proof.Machine

/-- Byte `i` of a block, byte 0 the most significant (R6). -/
def blockByte (b : Block) (i : Nat) : Byte := b.extractLsb' (8 * (15 - i)) 8

/-- The 16 bytes of a block, byte 0 first: `blk`'s byte string (R6, R51). -/
def blockBytes (b : Block) : Bytes := (List.range 16).map (blockByte b)

/-- `int` of a 16-byte string as a block, big-endian (R6, R51). -/
def blockOf (s : Bytes) : Block := s.foldl (fun acc x => acc <<< 8 ||| x.setWidth 128) 0

/-- `BE64(n)` (R6). -/
def be64 (n : Count) : Bytes := (List.range 8).map fun i => n.extractLsb' (8 * (7 - i)) 8

/-- `BE32(n)` (R6). -/
def be32 (n : BitVec 32) : Bytes := (List.range 4).map fun i => n.extractLsb' (8 * (3 - i)) 8

/-- `a XOR b` of two byte strings (R8). -/
def xorBytes (a b : Bytes) : Bytes := List.zipWith (· ^^^ ·) a b

/-- `trunc(s, n)`, the first n bytes (R8). -/
def trunc (s : Bytes) (n : Nat) : Bytes := s.take n

/-- `MemRead(buf, off, n)` is `buf[off..off+n)` (R9). -/
def memRead (buf : Bytes) (off n : Nat) : Bytes := (buf.drop off).take n

/-- `pad16(s)` appends 0 to 15 zero bytes (R122). -/
def pad16 (s : Bytes) : Bytes := s ++ List.replicate ((16 - s.length % 16) % 16) 0

/-- The first `n` runs of 16 bytes of a string, lowest offset first (R55, R121). -/
def chunks : Nat → Bytes → List Bytes
  | 0, _ => []
  | n + 1, s => s.take 16 :: chunks n (s.drop 16)

/-- `lenblock(a, c) = BE64(a) || BE64(c)` (R53, R125). -/
def lenblock (a c : Count) : Block := a ++ c

end Sys2Proof.Machine
end

