-- ==== Sys2Proof/Machine/Gf.lean ====
section
/-! DEFINITION. Multiplication in GF(2^128) (spec/40_multiplier.md R100 to R104), under the bit order of 00_scope.md R7:
the coefficient of x^i is bit 127 - i of the block's integer. -/

namespace Sys2Proof.Machine

/-- `gfbit(X, i)`, the coefficient of x^i (R7). -/
def gfbit (x : Block) (i : Nat) : Bool := x.getLsbD (127 - i)

/-- `ONE`, the field's one (R7). -/
def gfOne : Block := 0x80000000000000000000000000000000#128

/-- The constant R = 0xE1 * 2^120 (R101). -/
def gfR : Block := 0xE1000000000000000000000000000000#128

/-- V * x: a right shift by one, with x^128 reduced to R (R101). -/
def mulX (v : Block) : Block := if v.getLsbD 0 then (v >>> 1) ^^^ gfR else v >>> 1

/-- Z and V after `i` iterations of R101's loop. -/
def mulRefLoop (x y : Block) : Nat → Block × Block
  | 0 => (0, y)
  | i + 1 =>
    let zv := mulRefLoop x y i
    (if gfbit x i then zv.1 ^^^ zv.2 else zv.1, mulX zv.2)

/-- `mul_ref(X, Y)` (R101). -/
def mulRef (x y : Block) : Block := (mulRefLoop x y 128).1

/-- `rev128` reverses the 128 bits (R102). -/
def rev128 (v : Block) : Block := v.reverse

/-- The carry-less product of the low `n` bits of `a` with `b` (R102's `clmul`). -/
def clmul (a b : Block) : Nat → BitVec 256
  | 0 => 0
  | n + 1 => if a.getLsbD n then clmul a b n ^^^ (b.setWidth 256 <<< n) else clmul a b n

/-- R102's modulus 2^128 + 2^7 + 2^2 + 2 + 1, as a polynomial over GF(2) (R100's P). -/
def gfP : BitVec 256 := 0x100000000000000000000000000000087#256

/-- Polynomial division over GF(2): clear bits 128 + n - 1 down to 128 by adding shifted copies of P (R102). -/
def polyMod : Nat → BitVec 256 → BitVec 256
  | 0, c => c
  | n + 1, c => polyMod n (if c.getLsbD (128 + n) then c ^^^ (gfP <<< n) else c)

/-- `mul_accel(X, Y)`, the closed form of R102. -/
def mulAccel (x y : Block) : Block := rev128 ((polyMod 127 (clmul (rev128 x) (rev128 y) 128)).setWidth 128)

/-- `mul(a, b)`, the function every rule calls, is `mul_ref` whatever path runs (R103, R104, D7). -/
def mul (a b : Block) : Block := mulRef a b

end Sys2Proof.Machine
end

