-- ==== Sys2Proof/Machine/Ghash.lean ====
section
/-! DEFINITION. The GHASH accumulator, the counter and the tag: functions of register values that INIT, ENC_UPDATE,
ENC_FINAL and DEC_FINAL share (spec/41_ghash.md, 43_encrypt.md R160, R161, R167, 44_decrypt.md R195). -/

namespace Sys2Proof.Machine

/-- `accumulate(X)`: the new Y (R120). -/
def accumulate (h y x : Block) : Block := mul (y ^^^ x) h

/-- `accumulate_many(s)`, for a string whose length is a multiple of 16: the new Y (R121). -/
def accumulateMany (h y : Block) (s : Bytes) : Block :=
  (chunks (s.length / 16) s).foldl (fun acc x => accumulate h acc (blockOf x)) y

/-- `ghash_string(s)`: the new Y (R123). -/
def ghashString (h y : Block) (s : Bytes) : Block := accumulateMany h y (pad16 s)

/-- `inc32`: the low 32 bits step mod 2^32, the upper 96 stay (R160). -/
def inc32 (cb : Block) : Block := cb.extractLsb' 32 96 ++ (cb.extractLsb' 0 32 + 1#32)

/-- `ctr_step(X, |X|)`: the new CB and the output (R161). The increment comes before the cipher call. -/
def ctrStep (E : Cipher) (key : KeySched) (cb : Block) (x : Bytes) : Block × Bytes :=
  (inc32 cb, xorBytes x (trunc (blockBytes (E key (inc32 cb))) x.length))

/-- `ctr_step` over a list of pieces of the data stream, in order: the last CB and the output. -/
def ctrSteps (E : Cipher) (key : KeySched) : Block → List Bytes → Block × Bytes
  | cb, [] => (cb, [])
  | cb, x :: xs =>
    let first := ctrStep E key cb x
    let rest := ctrSteps E key first.1 xs
    (rest.1, first.2 ++ rest.2)

/-- The tag: fold the length block, then the leading TAG_LEN bytes of `E(KEY, J0) XOR Y` (R165, R167, R193). -/
def gcmTag (E : Cipher) (key : KeySched) (h j0 y : Block) (aadBits dataBits : Count) (tagLen : Nat) : Bytes :=
  trunc (blockBytes (E key j0 ^^^ accumulate h y (lenblock aadBits dataBits))) tagLen

/-- `tags_equal(T, T')`: the OR of all byte differences is zero, with no early exit (R195). -/
def tagsEqual (t t' : Bytes) : Bool := (xorBytes t t').foldl (· ||| ·) 0 == 0

end Sys2Proof.Machine
end

