-- ==== Sys2Proof/Machine/Decrypt.lean ====
section
/-! DEFINITION. The decrypt path: DEC_UPDATE and DEC_FINAL (spec/44_decrypt.md R190 to R197). -/

namespace Sys2Proof.Machine

/-- DEC_UPDATE: the bytes join PT_BUF; no keystream, no GHASH (R190 to R192). An empty operand takes no draw (D37). -/
def execDecUpdate (s : State) : Result :=
  s.withCtx fun c => s.requireActive c .dec <|
    if s.opA.length = 0 then s.finish c []
    else if overLimit (8 * (c.ptBuf.length + s.opA.length)) then .refused .lengthLimit
    else if s.plat.ptBufCap < c.ptBuf.length + s.opA.length ∨ ¬ s.allocOk then s.raise .resourceExhausted
    else s.finish { c with ptBuf := c.ptBuf ++ s.opA } []

/-- The pieces DEC_FINAL decrypts: the whole blocks, then a trailing partial block if there is one (R193, R196). -/
def decPieces (ct : Bytes) : List Bytes :=
  chunks (ct.length / 16) ct ++ if ct.length % 16 = 0 then [] else [ct.drop (16 * (ct.length / 16))]

/-- DEC_FINAL for a cipher E (R193 to R197): the checks, the hash, the comparison, and only after a match the
plaintext. CB is read only when there is a byte to decrypt. -/
def decFinalWith (E : Cipher) (s : State) : Result :=
  s.withCtx fun c => s.requireActive c .dec <|
    need .tagLen c.tagLen fun tagLen =>
    if c.ptBuf.length < tagLen.toNat then s.raise .dataLenRange
    else
      let pl := c.ptBuf.length - tagLen.toNat
      if s.outcap < pl then s.raise .lengthRange (rlenOf pl)
      else
        need .key c.key fun key => need .h c.h fun h => need .y c.y fun y => need .j0 c.j0 fun j0 =>
        need .aadBits c.aadBits fun aadBits =>
        let ct := memRead c.ptBuf 0 pl
        let received := memRead c.ptBuf pl tagLen.toNat
        let expected := gcmTag E key h j0 (ghashString h y ct) aadBits (BitVec.ofNat 64 (8 * pl)) tagLen.toNat
        if ¬ tagsEqual expected received then s.raiseWith release .authFailure
        else if pl = 0 then s.finish release []
        else need .cb c.cb fun cb => s.finish release (ctrSteps E key cb (decPieces ct)).2

/-- DEC_FINAL (R193). -/
def execDecFinal (s : State) : Result := decFinalWith Config.E s

end Sys2Proof.Machine
end

