-- ==== Sys2Proof/Machine/Encrypt.lean ====
section
/-! DEFINITION. The encrypt path: ENC_UPDATE and ENC_FINAL, GCM and GMAC (spec/43_encrypt.md R162 to R171). -/

namespace Sys2Proof.Machine

/-- What ENC_UPDATE's loop changes, with the bytes emitted so far (R162). -/
structure EncStream where
  cb : Block
  y : Block
  dataBits : Count
  out : Bytes
  deriving DecidableEq, Repr

/-- One pass of ENC_UPDATE's loop: encrypt a block, emit it, hash the ciphertext, count 128 bits (R162). -/
def encBlock (E : Cipher) (key : KeySched) (h : Block) (st : EncStream) (x : Bytes) : EncStream :=
  let step := ctrStep E key st.cb x
  { cb := step.1
    y := accumulate h st.y (blockOf step.2)
    dataBits := st.dataBits + 128
    out := st.out ++ step.2 }

/-- ENC_UPDATE for a cipher E (R162, R163). With no whole block the loop runs zero times and reads no register.
It ignores B (R73), so only the lie of OUT against A can refuse it (R57; log 4). -/
def encUpdateWith (E : Cipher) (s : State) : Result :=
  s.withCtx fun c => s.requireStream c <|
    need .dataBits c.dataBits fun dataBits =>
    let data := c.rem ++ s.opA
    let nb := data.length / 16
    if overLimit (dataBits.toNat + 8 * data.length) then .refused .lengthLimit
    else if s.outcap < 16 * nb then s.raise .lengthRange (rlenOf (16 * nb))
    else if nb = 0 then s.finish { c with rem := data } []
    else if s.shiftedA then .refused .partialOverlap
    else
      need .key c.key fun key => need .cb c.cb fun cb => need .h c.h fun h => need .y c.y fun y =>
      let st := (chunks nb data).foldl (encBlock E key h) ⟨cb, y, dataBits, []⟩
      s.finish
        { c with cb := some st.cb, y := some st.y, dataBits := some st.dataBits, rem := data.drop (16 * nb) }
        st.out

/-- ENC_FINAL for a cipher E (R165 to R171). -/
def encFinalWith (E : Cipher) (s : State) : Result :=
  s.withCtx fun c => s.requireActive c .enc <|
    need .mode c.mode fun mode =>
    if mode = .gmac ∧ c.rem ≠ [] then s.raiseWith { c with phase := .fault } .internalConsistency
    else
      need .tagLen c.tagLen fun tagLen =>
      let size := c.rem.length + tagLen.toNat
      if s.outcap < size then s.raise .lengthRange (rlenOf size)
      else
        need .key c.key fun key => need .h c.h fun h => need .y c.y fun y => need .j0 c.j0 fun j0 =>
        need .aadBits c.aadBits fun aadBits => need .dataBits c.dataBits fun dataBits =>
        if c.rem.length = 0 then s.finish release (gcmTag E key h j0 y aadBits dataBits tagLen.toNat)
        else
          need .cb c.cb fun cb =>
          let ct := (ctrStep E key cb c.rem).2
          s.finish release
            (ct ++ gcmTag E key h j0 (accumulate h y (blockOf (pad16 ct))) aadBits
              (dataBits + BitVec.ofNat 64 (8 * c.rem.length)) tagLen.toNat)

/-- ENC_UPDATE (R162). -/
def execEncUpdate (s : State) : Result := encUpdateWith Config.E s

/-- ENC_FINAL, in GCM mode (R165) and in GMAC mode (R169). -/
def execEncFinal (s : State) : Result := encFinalWith Config.E s

end Sys2Proof.Machine
end

