-- ==== Sys2Proof/Machine/Initializer.lean ====
section
/-! DEFINITION. INIT (spec/42_init.md R140 to R148). -/

namespace Sys2Proof.Machine

/-- J0 of an IV: `IV || 0x00000001` for 12 bytes (R143), else the GHASH of the padded IV and its length block (R144). -/
def initJ0 (h : Block) (iv : Bytes) : Block :=
  if iv.length = 12 then blockOf (iv ++ [0, 0, 0, 1])
  else accumulate h (ghashString h 0 iv) (lenblock 0 (BitVec.ofNat 64 (8 * iv.length)))

/-- The context INIT leaves (R140, R142 to R147). Y starts from zero for the AAD, whatever the IV path hashed (R144). -/
def initContext (E : Cipher) (mode : Mode) (dir : Dir) (tagBits : Nat) (key : KeySched) (iv aad : Bytes) : Context :=
  let h := E key 0
  let j0 := initJ0 h iv
  { phase := .active
    mode := some mode
    dir := some dir
    key := some key
    h := some h
    y := some (ghashString h 0 aad)
    cb := some j0
    j0 := some j0
    aadBits := some (BitVec.ofNat 64 (8 * aad.length))
    dataBits := some 0
    tagLen := some (tagLenOf tagBits)
    rem := []
    ptBuf := [] }

/-- INIT for a cipher E, checks in the order of R140 and R250. -/
def initWith (E : Cipher) (mode : Mode) (dir : Dir) (tagBits : Nat) (s : State) : Result :=
  s.withCtx fun c => s.requireIdle c <|
    if ¬ tagBitsLegal tagBits then s.raise .paramInvalid
    else if s.opA.length = 0 then s.raise .paramInvalid
    else if mode = .gmac ∧ dir = .dec then s.raise .paramInvalid
    else if overLimit (8 * s.opA.length) ∨ overLimit (8 * s.opB.length) then .refused .lengthLimit
    else if ¬ s.allocOk then s.raise .resourceExhausted
    else s.resolveCapability.finish (initContext E mode dir tagBits s.opKey s.opA s.opB) []

/-- INIT (R140). -/
def execInit (mode : Mode) (dir : Dir) (tagBits : Nat) (s : State) : Result := initWith Config.E mode dir tagBits s

end Sys2Proof.Machine
end

