-- ==== Sys2Proof/Machine/Multiplier.lean ====
section
/-! DEFINITION. GFMUL (spec/40_multiplier.md R106). -/

namespace Sys2Proof.Machine

/-- GFMUL: legal in every phase, reads and writes no context register (R106). A product emitted over A or B at a
different offset is refused, one emitted exactly over either is not (R57, R276, D24; log 4). -/
def execGfmul (s : State) : Result :=
  s.withCtx fun _ =>
    if s.opA.length ≠ 16 ∨ s.opB.length ≠ 16 then s.raise .paramInvalid
    else if s.shiftedA || s.shiftedB then .refused .partialOverlap
    else .next (s.resolveCapability.respond ⟨.ok, blockBytes (mul (blockOf s.opA) (blockOf s.opB)), 0⟩)

end Sys2Proof.Machine
end

