-- ==== Sys2Proof/Machine/Dispatch.lean ====
section
/-! DEFINITION. One arm per command (spec/45_control.md R220). -/

namespace Sys2Proof.Machine

def exec (i : Instr) (s : State) : Host.Outcome State Fault Refusal :=
  match i with
  | .gfmul => Sys2Proof.Machine.execGfmul s
  | .init mode dir tagBits => Sys2Proof.Machine.execInit mode dir tagBits s
  | .encUpdate => Sys2Proof.Machine.execEncUpdate s
  | .encFinal => Sys2Proof.Machine.execEncFinal s
  | .decUpdate => Sys2Proof.Machine.execDecUpdate s
  | .decFinal => Sys2Proof.Machine.execDecFinal s
  | .abort => Sys2Proof.Machine.execAbort s

end Sys2Proof.Machine
end

