-- ==== Sys2Proof/Machine/Step.lean ====
section
/-! DEFINITION. One step: the engine takes the host's oldest event and deals with it whole (spec/45_control.md R220,
20_memory.md R56). With nothing pending it is idle and keeps its registers (60_exceptions.md R257). -/

namespace Sys2Proof.Machine

/-- R220's execution cycle on the request just taken: decode, then the command's rule with its legality check, then the
response. -/
def runCommand (s : State) : Result :=
  match decode s.req.cmd.word with
  | .ok i => exec i s
  | .error _ => s.illegalCommand

/-- One step of the machine. -/
def step (s : State) : Host.Outcome State Fault Refusal :=
  match takeEvent s with
  | .idle => .next s
  | .run s' => runCommand s'
  | .done s' => .next s'

/-- `s` with the word `w` as the next command to run. -/
def State.withFetchWord (s : State) (nbits w : Nat) : State :=
  { s with inbox := placeWord (BitVec.ofNat 32 (w % 2 ^ nbits)) s.inbox }

end Sys2Proof.Machine
end

