-- ==== Sys2Proof/Machine/Pseudo.lean ====
section
/-! DEFINITION. The pseudo-commands (spec/30_encoding.md R83): fixed command sequences on one instance that stop at the
first response whose STATUS is not OK, and return that response. -/

namespace Sys2Proof.Machine

/-- The arguments of a pseudo-command, with the draws its INIT and its DEC_UPDATE take (R4, D10) and how OUT lies against
the buffers of its operands A and B (R57, R276; log 20). -/
structure PseudoArgs where
  inst : Nat
  tagBits : Nat
  key : KeySched
  iv : Bytes
  aad : Bytes
  data : Bytes
  cap : Count
  initDraw : Bool
  updateDraw : Bool
  overlapA : Overlap
  overlapB : Overlap
  deriving DecidableEq, Repr

/-- What a pseudo-command answers: the state it leaves and the response it returns. -/
abbrev PseudoResult := Host.Outcome (State × Response) Fault Refusal

/-- The response the last step gave. -/
def lastResponse (s : State) : Response :=
  match s.outbox.getLast? with
  | some r => r.2
  | none => ⟨.sequenceError, [], 0⟩

/-- Issue one command, as the host's oldest event, and step. Go on with `k` while STATUS is OK (R83). -/
def issue (s : State) (r : Request) (k : State → Response → PseudoResult) : PseudoResult :=
  match step { s with inbox := .command r :: s.inbox } with
  | .next t => if (lastResponse t).status = .ok then k t (lastResponse t) else .next (t, lastResponse t)
  | .fault f => .fault f
  | .refused q => .refused q

/-- `INIT.m.d tag=t key=k iv=v aad=a` (R82). R82 and R83 do not say what a tag t of 256 or more does, which TAGBITS cannot
hold. DESIGN CHOICE (log 20): the word is R82's formula cut to its 32 bits and nothing is checked, so t = 256 spills into
RSV1 and is answered with ILLEGAL_COMMAND, and t = 2^24 + 128 acts as t = 128. -/
def PseudoArgs.initRequest (p : PseudoArgs) (mode : Mode) (dir : Dir) : Request where
  inst := p.inst
  cmd := { word := encode (.init mode dir p.tagBits), a := p.iv, b := p.aad, key := p.key, outcap := 0 }
  allocOk := p.initDraw
  overlapA := p.overlapA
  overlapB := p.overlapB

/-- A command with operand A = `data` and output space `cap` (R82). The KEY operand, which it ignores (R73), stays `key`. -/
def PseudoArgs.request (p : PseudoArgs) (i : Instr) (data : Bytes) (cap : Count) : Request where
  inst := p.inst
  cmd := { word := encode i, a := data, b := [], key := p.key, outcap := cap }
  allocOk := p.updateDraw
  overlapA := p.overlapA
  overlapB := p.overlapB

/-- GCM_SEAL: INIT.GCM.ENC, ENC_UPDATE, ENC_FINAL with the space the update left; the two OUTs concatenated (R83). -/
def gcmSeal (p : PseudoArgs) (s : State) : PseudoResult :=
  issue s (p.initRequest .gcm .enc) fun s1 _ =>
  issue s1 (p.request .encUpdate p.data p.cap) fun s2 r2 =>
  issue s2 (p.request .encFinal [] (p.cap - BitVec.ofNat 64 r2.out.length)) fun s3 r3 =>
  .next (s3, { r3 with out := r2.out ++ r3.out })

/-- GCM_OPEN: INIT.GCM.DEC, DEC_UPDATE, DEC_FINAL (R83). -/
def gcmOpen (p : PseudoArgs) (s : State) : PseudoResult :=
  issue s (p.initRequest .gcm .dec) fun s1 _ =>
  issue s1 (p.request .decUpdate p.data 0) fun s2 _ =>
  issue s2 (p.request .decFinal [] p.cap) fun s3 r3 => .next (s3, r3)

/-- GMAC_TAG: INIT.GMAC.ENC, ENC_FINAL (R83). -/
def gmacTag (p : PseudoArgs) (s : State) : PseudoResult :=
  issue s (p.initRequest .gmac .enc) fun s1 _ =>
  issue s1 (p.request .encFinal [] p.cap) fun s2 r2 => .next (s2, r2)

/-- GMAC_VERIFY: GCM_OPEN of the received tag alone, with no output space (R83, R199). -/
def gmacVerify (p : PseudoArgs) (s : State) : PseudoResult := gcmOpen { p with cap := 0 } s

end Sys2Proof.Machine
end

