-- ==== Sys2Proof/Safety.lean ====
section
/-! DEFINITION. The words the claims are stated in: a live context, the invariants of spec/10_state.md R35, the legality
table of 45_control.md R221, admissible requests, and GCM as one formula (43_encrypt.md R172). -/

namespace Sys2Proof.Machine

/-- The values of the ten registers of an active context that hold no value otherwise (R11, R20). -/
structure Live where
  mode : Mode
  dir : Dir
  key : KeySched
  h : Block
  y : Block
  cb : Block
  j0 : Block
  aadBits : Count
  dataBits : Count
  tagLen : BitVec 5
  deriving DecidableEq, Repr

/-- An ACTIVE context whose registers all hold a value. -/
def Live.context (v : Live) (rem ptBuf : Bytes) : Context where
  phase := .active
  mode := some v.mode
  dir := some v.dir
  key := some v.key
  h := some v.h
  y := some v.y
  cb := some v.cb
  j0 := some v.j0
  aadBits := some v.aadBits
  dataBits := some v.dataBits
  tagLen := some v.tagLen
  rem := rem
  ptBuf := ptBuf

/-- The upper 96 bits of a counter block (R24). -/
def nonceOf (b : Block) : BitVec 96 := b.extractLsb' 32 96

/-- The low 32 bits of a counter block (R6, R52). -/
def counterOf (b : Block) : BitVec 32 := b.extractLsb' 0 32

/-- What holds of an active context after every command: R35 (a) to (e), with the widths and legal values of the
register table in 10_state.md. R35 (c)'s clause on Y is a claim about steps, not about one state. -/
structure Live.Inv (p : Platform) (v : Live) (rem ptBuf : Bytes) : Prop where
  /-- H is E(KEY, 0^128) (R21). -/
  subkey : v.h = Config.E v.key 0
  /-- R35 (a), R24. -/
  nonce : nonceOf v.cb = nonceOf v.j0
  /-- R35 (b). -/
  counted : v.dir = .enc → v.mode = .gcm →
    ∃ k : Nat, v.dataBits.toNat = 128 * k ∧ counterOf v.cb = counterOf v.j0 + BitVec.ofNat 32 k
  /-- R35 (c). -/
  decrypting : v.dir = .dec → v.cb = v.j0 ∧ v.dataBits = 0 ∧ rem = []
  /-- R35 (d), R29. -/
  encrypting : v.dir = .enc → ptBuf = []
  /-- R35 (e), R30. -/
  gmac : v.mode = .gmac → v.dir = .enc ∧ rem = [] ∧ v.dataBits = 0
  /-- REM holds 0 to 15 bytes (R28). -/
  remShort : rem.length < 16
  /-- R27. -/
  tagLegal : v.tagLen.toNat ∈ [4, 8, 12, 13, 14, 15, 16]
  /-- AAD_BITS is a multiple of 8 (10_state.md). -/
  aadWhole : v.aadBits.toNat % 8 = 0
  /-- The data counted and held fits 64 bits (R26, R58). -/
  dataFits : v.dataBits.toNat + 8 * rem.length ≤ Config.lenLimitBits
  /-- PT_BUF is within its capacity (R29). -/
  bufFits : ptBuf.length ≤ p.ptBufCap
  /-- PT_BUF's bit count fits 64 bits (R58). -/
  bufCounted : 8 * ptBuf.length ≤ Config.lenLimitBits

/-- A context is as reset leaves it (R270, R171), or active with its invariant. FAULT is never reached (R246). -/
def Context.Inv (p : Platform) (c : Context) : Prop :=
  c = Context.reset ∨ ∃ (v : Live) (rem ptBuf : Bytes), c = v.context rem ptBuf ∧ v.Inv p rem ptBuf

/-- The invariant of the whole machine: every context's, and CAP_STATE's (R32, R225). -/
structure State.Inv (s : State) : Prop where
  someInstance : s.insts ≠ []
  contexts : ∀ c ∈ s.insts, c.Inv s.plat
  capability : s.capState = .unprobed ∨ s.capState = s.plat.capability
  resolved : (∃ c ∈ s.insts, c.phase ≠ .idle) → s.capState ≠ .unprobed

/-- A word R77 or R78 calls illegal: OPC is 0x0 or 0x8 to 0xF, RSV1 or RSV0 is not zero, or TAGBITS, DIR or MODE is not zero
outside INIT (R71's places). -/
def IllegalWord (w : CmdWord) : Prop :=
  w &&& 0xF#32 = 0 ∨ 8#32 ≤ w &&& 0xF#32 ∨ w &&& 0xFFFF00C0#32 ≠ 0 ∨ (w &&& 0xF#32 ≠ 2 ∧ w &&& 0x0000FF30#32 ≠ 0)

/-- The legality table (R221): PHASE, and MODE and DIR where PHASE is ACTIVE. -/
def legalIn : Instr → Phase → Mode → Dir → Bool
  | .gfmul, _, _, _ => true
  | .init _ _ _, .idle, _, _ => true
  | .init _ _ _, _, _, _ => false
  | .encUpdate, .active, .gcm, .enc => true
  | .encUpdate, _, _, _ => false
  | .encFinal, .active, _, .enc => true
  | .encFinal, _, _, _ => false
  | .decUpdate, .active, .gcm, .dec => true
  | .decUpdate, _, _, _ => false
  | .decFinal, .active, .gcm, .dec => true
  | .decFinal, _, _, _ => false
  | .abort, _, _, _ => true

/-- PHASE after a command that completes with OK (R221). -/
def phaseAfter : Instr → Phase → Phase
  | .gfmul, p => p
  | .init _ _ _, _ => .active
  | .encUpdate, _ => .active
  | .encFinal, _ => .idle
  | .decUpdate, _ => .active
  | .decFinal, _ => .idle
  | .abort, _ => .idle

/-- The column of R221's table a context stands in. MODE and DIR matter where PHASE is ACTIVE, and ACTIVE, GMAC, DEC is
no column. -/
def Context.InColumn (c : Context) (p : Phase) (m : Mode) (d : Dir) : Prop :=
  c.phase = p ∧ (p = .active → c.mode = some m ∧ c.dir = some d ∧ ¬ (m = .gmac ∧ d = .dec))

/-- The output size a command needs on a context (R244). -/
def requiredSpace (i : Instr) (s : State) (c : Context) : Nat :=
  match i with
  | .encUpdate => 16 * ((c.rem.length + s.opA.length) / 16)
  | .encFinal => c.rem.length + (c.tagLen.getD 0).toNat
  | .decFinal => c.ptBuf.length - (c.tagLen.getD 0).toNat
  | .gfmul => 0
  | .init _ _ _ => 0
  | .decUpdate => 0
  | .abort => 0

/-- A request the model gives a meaning: its instance exists (R256), OUT overlaps no input buffer of the command at another
offset (R57, R276; B's matters for GFMUL only, log 4), and no bit count passes the limit (R58). -/
structure Request.Admissible (s : State) (r : Request) (c : Context) : Prop where
  hasInstance : s.insts[r.inst]? = some c
  placedA : r.overlapA ≠ .shifted
  placedB : decode r.cmd.word = .ok .gfmul → r.overlapB ≠ .shifted
  ivFits : 8 * r.cmd.a.length ≤ Config.lenLimitBits
  aadFits : 8 * r.cmd.b.length ≤ Config.lenLimitBits
  encFits : (c.dataBits.getD 0).toNat + 8 * (c.rem.length + r.cmd.a.length) ≤ Config.lenLimitBits
  decFits : 8 * (c.ptBuf.length + r.cmd.a.length) ≤ Config.lenLimitBits

/-- A safe outcome: no fault and no refusal. -/
def Safe (o : Result) : Prop := ∃ t, o = .next t

/-- Byte j of the CTR output is byte j of the input XOR byte j mod 16 of E(KEY, inc32^(j/16+1)(CB)) (R161, R172, R196). -/
def ctrXor (E : Cipher) (key : KeySched) (cb : Block) (s : Bytes) : Bytes :=
  s.mapIdx fun j b => b ^^^ (blockBytes (E key (inc32^[j / 16 + 1] cb))).getD (j % 16) 0

/-- J0 from H and the IV, as one formula (R143, R144). -/
def gcmJ0 (h : Block) (iv : Bytes) : Block :=
  if iv.length = 12 then blockOf (iv ++ [0x00, 0x00, 0x00, 0x01])
  else accumulateMany h 0 (pad16 iv ++ blockBytes (lenblock 0 (BitVec.ofNat 64 (8 * iv.length))))

/-- GCM's ciphertext, as one formula (R172). -/
def gcmCiphertext (E : Cipher) (key : KeySched) (iv data : Bytes) : Bytes := ctrXor E key (gcmJ0 (E key 0) iv) data

/-- GCM's tag over AAD and ciphertext, as one formula (R172). -/
def gcmTagOf (E : Cipher) (key : KeySched) (iv aad ct : Bytes) (tagLen : Nat) : Bytes :=
  (blockBytes (E key (gcmJ0 (E key 0) iv) ^^^ accumulateMany (E key 0) 0
    (pad16 aad ++ pad16 ct ++
      blockBytes (lenblock (BitVec.ofNat 64 (8 * aad.length)) (BitVec.ofNat 64 (8 * ct.length)))))).take tagLen

/-- The responses one instance has given, oldest first (R61, R75). -/
def State.responsesOf (s : State) (n : Nat) : List Response := (s.outbox.filter fun r => r.1 == n).map Prod.snd

/-- The same request again with another operand A and output space. -/
def State.withOperand (s : State) (a : Bytes) (outcap : Count) : State :=
  { s with req := { s.req with cmd := { s.req.cmd with a := a, outcap := outcap } } }

/-- Successive commands of one kind on one instance, each with its operand A and output space (R61, R172). -/
def feed (i : Instr) (s : State) : List (Bytes × Count) → Result
  | [] => .next s
  | p :: rest =>
    match exec i (s.withOperand p.1 p.2) with
    | .next t => feed i t rest
    | .fault f => .fault f
    | .refused q => .refused q

/-- Two outcomes the host cannot tell apart: the same kind, and on a next state the same contexts and the same
responses (R104). -/
def Agree : Result → Result → Prop
  | .next t, .next u => t.insts = u.insts ∧ t.outbox = u.outbox
  | .fault f, .fault g => f = g
  | .refused q, .refused r => q = r
  | _, _ => False

end Sys2Proof.Machine
end

