-- ==== Sys2Proof/Certificates/Slice0/Obligations.lean ====
section
/-! DEFINITION. The statements for the provers, from the numbered rules of spec/. -/

open Sys2Proof Sys2Proof.Machine

/-! ### The command word (30_encoding.md) -/

/-- The example words of R82 and the fixed words of R84 decode to their commands. -/
def Obligations.TableWordsDecode : Prop :=
  decode 0x00000001#32 = .ok .gfmul ∧
  decode 0x00008002#32 = .ok (.init .gcm .enc 128) ∧
  decode 0x00008022#32 = .ok (.init .gcm .dec 128) ∧
  decode 0x00008012#32 = .ok (.init .gmac .enc 128) ∧
  decode 0x00002002#32 = .ok (.init .gcm .enc 32) ∧
  decode 0x00000003#32 = .ok .encUpdate ∧
  decode 0x00000004#32 = .ok .encFinal ∧
  decode 0x00000005#32 = .ok .decUpdate ∧
  decode 0x00000006#32 = .ok .decFinal ∧
  decode 0x00000007#32 = .ok .abort

/-- R82's formula for the word of INIT: 0x00000002 | (m = GMAC) << 4 | (d = DEC) << 5 | t << 8. -/
def Obligations.InitWordIsTheFormula : Prop :=
  ∀ (m : Mode) (d : Dir) (t : Nat), t < 256 →
    (encode (.init m d t)).toNat = 2 + (if m = .gmac then 16 else 0) + (if d = .dec then 32 else 0) + 256 * t

/-- Decoding the encoding of any well-formed command gives it back, with every MODE, DIR and TAGBITS (R71, R79). -/
def Obligations.EncodeThenDecodeReturnsTheCommand : Prop :=
  ∀ i : Instr, i.wf = true → decode (encode i) = .ok i

/-- A word that decodes is the encoding of what it decodes to: no two words name one command (R80, R84). -/
def Obligations.DecodedWordEncodesBack : Prop :=
  ∀ (w : CmdWord) (i : Instr), decode w = .ok i → i.wf = true ∧ encode i = w

/-- A word decodes exactly when it matches a row of R84's match/mask table. -/
def Obligations.LegalWordsAreTheTableRows : Prop :=
  ∀ w : CmdWord, (∃ i, decode w = .ok i) ↔
    (w = 0x00000001#32 ∨ w &&& 0xFFFF00CF#32 = 0x00000002#32 ∨ w = 0x00000003#32 ∨ w = 0x00000004#32 ∨
      w = 0x00000005#32 ∨ w = 0x00000006#32 ∨ w = 0x00000007#32)

/-- R77, R78, R223: a reserved OPC, a non-zero reserved field, or a non-zero MODE, DIR or TAGBITS outside INIT is answered
with ILLEGAL_COMMAND, and nothing changes: by `runCommand` on the request being executed, and by the step that takes such
a request from the inbox. That the step moves the request from the head of the inbox to `req`, and that responses go to
the outbox, is the model's own channel, no rule of the spec (log 2). -/
def Obligations.IllegalWordChangesNothing : Prop :=
  (∀ (s : State) (c : Context), s.ctx? = some c → IllegalWord s.req.cmd.word →
    runCommand s = .next { s with outbox := s.outbox ++ [(s.req.inst, ⟨.illegalCommand, [], 0⟩)] }) ∧
  (∀ (s : State) (r : Request) (rest : List HostEvent) (c : Context),
    s.inbox = .command r :: rest → s.insts[r.inst]? = some c → IllegalWord r.cmd.word →
    step s = .next { s with
      inbox := rest, req := r, outbox := s.outbox ++ [(r.inst, ⟨.illegalCommand, [], 0⟩)] })

/-- R76: the status codes. -/
def Obligations.StatusCodesAreTheTable : Prop :=
  Status.ok.code = 0x00 ∧ Status.paramInvalid.code = 0x01 ∧ Status.resourceExhausted.code = 0x02 ∧
  Status.lengthRange.code = 0x03 ∧ Status.authFailure.code = 0x04 ∧ Status.internalConsistency.code = 0x05 ∧
  Status.illegalCommand.code = 0x06 ∧ Status.sequenceError.code = 0x07 ∧ Status.dataLenRange.code = 0x08

/-! ### The step, reset and the invariants (45_control.md, 70_reset_and_hazards.md, 10_state.md) -/

/-- The step takes the oldest request, and when its WORD decodes to `i` it is `exec i` with that request being executed
(R220, R61); with nothing pending it changes nothing (R257). The inbox is the model's own (log 2). -/
def Obligations.StepRunsTheDecodedCommand : Prop :=
  (∀ (s : State) (r : Request) (rest : List HostEvent) (i : Instr),
    s.inbox = .command r :: rest → decode r.cmd.word = .ok i →
    step s = exec i { s with inbox := rest, req := r }) ∧
  (∀ s : State, s.inbox = [] → step s = .next s)

/-- R270 and R271: what reset leaves, that resetting one instance resets no other register and not CAP_STATE, and that
resetting the platform resets CAP_STATE too. That a reset arrives as an event of the inbox, gives no response, and keeps
the events still pending and the responses already given is the model's choice, no rule of the spec (log 16). -/
def Obligations.ResetLeavesIdleContexts : Prop :=
  (∀ c ∈ State.reset.insts, c.phase = .idle ∧ c.rem = [] ∧ c.ptBuf = [] ∧ c.mode = none ∧ c.dir = none ∧ c.key = none ∧
    c.h = none ∧ c.y = none ∧ c.cb = none ∧ c.j0 = none ∧ c.aadBits = none ∧ c.dataBits = none ∧ c.tagLen = none) ∧
  State.reset.insts.length = Config.N_INST ∧ State.reset.capState = .unprobed ∧
  (∀ (s : State) (n : Nat) (rest : List HostEvent), s.inbox = .resetInstance n :: rest →
    step s = .next { s with inbox := rest, insts := s.insts.set n Context.reset }) ∧
  (∀ (s : State) (rest : List HostEvent), s.inbox = .resetPlatform :: rest →
    step s = .next { s with
      inbox := rest, insts := List.replicate s.insts.length Context.reset, capState := .unprobed })

/-- The invariant holds at reset. -/
def Obligations.InvariantHoldsAtReset : Prop := State.reset.Inv

/-- Every step keeps the invariant of R35, R21, R24, R26 to R30 and R32 in every instance, from any state that has it. -/
def Obligations.StepKeepsTheInvariant : Prop :=
  ∀ s t : State, s.Inv → step s = .next t → t.Inv

/-- R11: a read of a register that holds no value is a fault, whatever the type of its values, and from a state with the
invariant no command makes one, whatever the request. -/
def Obligations.NoCommandReadsNoValue : Prop :=
  (∀ (α : Type) (r : Reg) (k : α → Result), need r none k = .fault (.noValue r)) ∧
  ∀ (i : Instr) (s : State) (f : Fault), s.Inv → exec i s ≠ .fault f

/-- From a state with the invariant, a step on an admissible request stops neither with a fault nor with a refusal. -/
def Obligations.AdmissibleRequestIsAnswered : Prop :=
  ∀ (s : State) (r : Request) (rest : List HostEvent) (c : Context),
    s.Inv → s.inbox = .command r :: rest → Request.Admissible s r c → ∃ t, step s = .next t

/-- A command is refused only for an instance that does not exist (log 5), for the length limit (R58), or for a partial
overlap of OUT with A, or with B where the command is GFMUL (R57, R276; log 4). -/
def Obligations.RefusalsAreTheNamedOnes : Prop :=
  ∀ (i : Instr) (s : State) (q : Refusal), exec i s = .refused q →
    (q = .noSuchInstance ∧ s.ctx? = none) ∨
    (q = .lengthLimit ∧ ∃ c, s.ctx? = some c ∧
      (Config.lenLimitBits < 8 * s.opA.length ∨ Config.lenLimitBits < 8 * s.opB.length ∨
        Config.lenLimitBits < (c.dataBits.getD 0).toNat + 8 * (c.rem.length + s.opA.length) ∨
        Config.lenLimitBits < 8 * (c.ptBuf.length + s.opA.length))) ∨
    (q = .partialOverlap ∧ (s.req.overlapA = .shifted ∨ (i = .gfmul ∧ s.req.overlapB = .shifted)))

/-! ### Frames and whole-machine rules -/

/-- A command changes no context but the addressed one, keeps their number, and writes no parameter and nothing of the
channel but the outbox (R56, R61, R62, R256). -/
def Obligations.CommandTouchesOnlyItsInstance : Prop :=
  ∀ (i : Instr) (s t : State), exec i s = .next t →
    t.insts.length = s.insts.length ∧ (∀ n, n ≠ s.req.inst → t.insts[n]? = s.insts[n]?) ∧
    t.plat = s.plat ∧ t.inbox = s.inbox ∧ t.req = s.req

/-- R75, with the sizes of R244: a command that completes returns exactly one response, its OUT is empty unless STATUS is
OK, and RLEN is the required size when STATUS is LENGTH_RANGE and 0 otherwise. A word that is no command gives one too. -/
def Obligations.EveryCommandGivesOneResponse : Prop :=
  (∀ (i : Instr) (s t : State), exec i s = .next t →
    ∃ (c : Context) (r : Response), s.ctx? = some c ∧ t.outbox = s.outbox ++ [(s.req.inst, r)] ∧
      (r.status ≠ .ok → r.out = []) ∧
      (r.status = .lengthRange → r.rlen = BitVec.ofNat 64 (requiredSpace i s c)) ∧
      (r.status ≠ .lengthRange → r.rlen = 0)) ∧
  (∀ (s t : State) (e : DecodeError), decode s.req.cmd.word = .error e → runCommand s = .next t →
    t.outbox = s.outbox ++ [(s.req.inst, ⟨.illegalCommand, [], 0⟩)])

/-- R241: an error leaves every context and CAP_STATE as they were, except that AUTH_FAILURE releases the context and
INTERNAL_CONSISTENCY sets PHASE to FAULT and changes nothing else; no error emits a byte. -/
def Obligations.ErrorsArePrecise : Prop :=
  ∀ (i : Instr) (s t : State) (r : Response), exec i s = .next t → t.outbox = s.outbox ++ [(s.req.inst, r)] →
    r.status ≠ .ok →
    r.out = [] ∧ t.capState = s.capState ∧
    (r.status = .authFailure → t.insts = s.insts.set s.req.inst Context.reset) ∧
    (r.status = .internalConsistency →
      ∃ c, s.ctx? = some c ∧ t.insts = s.insts.set s.req.inst { c with phase := .fault }) ∧
    (r.status ≠ .authFailure → r.status ≠ .internalConsistency → t.insts = s.insts)

/-- R221 and R222: where the table has "-", the command returns SEQUENCE_ERROR and nothing changes; where it names a rule,
the command never returns SEQUENCE_ERROR, after OK the PHASE is the table's, and after AUTH_FAILURE it is IDLE. -/
def Obligations.LegalityIsTheTable : Prop :=
  ∀ (i : Instr) (s : State) (c : Context) (p : Phase) (m : Mode) (d : Dir),
    s.ctx? = some c → c.InColumn p m d →
    (legalIn i p m d = false →
      exec i s = .next { s with outbox := s.outbox ++ [(s.req.inst, ⟨.sequenceError, [], 0⟩)] }) ∧
    (legalIn i p m d = true → ∀ (t : State) (r : Response),
      exec i s = .next t → t.outbox = s.outbox ++ [(s.req.inst, r)] →
      r.status ≠ .sequenceError ∧
      (r.status = .ok → ∃ c', t.ctx? = some c' ∧ c'.phase = phaseAfter i p) ∧
      (r.status = .authFailure → i = .decFinal ∧ ∃ c', t.ctx? = some c' ∧ c'.phase = .idle))

/-- R25, with R21's and R31's constancy: while the context stays ACTIVE no command changes J0, H, KEY, MODE, DIR, TAG_LEN
or AAD_BITS; on the decrypt path Y, CB, DATA_BITS and REM stay too (R35 c). -/
def Obligations.ActiveContextKeepsItsBinding : Prop :=
  ∀ (i : Instr) (s t : State) (c c' : Context),
    s.ctx? = some c → c.phase = .active → exec i s = .next t → t.ctx? = some c' → c'.phase = .active →
    c'.j0 = c.j0 ∧ c'.h = c.h ∧ c'.key = c.key ∧ c'.mode = c.mode ∧ c'.dir = c.dir ∧ c'.tagLen = c.tagLen ∧
    c'.aadBits = c.aadBits ∧
    (c.dir = some .dec → c'.y = c.y ∧ c'.cb = c.cb ∧ c'.dataBits = c.dataBits ∧ c'.rem = c.rem) ∧
    (c.dir = some .enc → c'.ptBuf = c.ptBuf)

/-- R36: on a decrypt context only DEC_FINAL emits plaintext, and only when the leading TAG_LEN bytes of
E(KEY, J0) XOR Y equal the trailing bytes of PT_BUF. (GFMUL emits a product, no plaintext.) -/
def Obligations.PlaintextOnlyAfterTheTagMatches : Prop :=
  ∀ (i : Instr) (s t : State) (c : Context) (r : Response),
    s.ctx? = some c → c.phase = .active → c.dir = some .dec → (∀ n, c.tagLen = some n → n.toNat ≤ 16) → i ≠ .gfmul →
    exec i s = .next t → t.outbox = s.outbox ++ [(s.req.inst, r)] → r.out ≠ [] →
    i = .decFinal ∧ ∃ (tagLen : BitVec 5) (key : KeySched) (h y j0 : Block) (aadBits : Count),
      c.tagLen = some tagLen ∧ c.key = some key ∧ c.h = some h ∧ c.y = some y ∧ c.j0 = some j0 ∧
      c.aadBits = some aadBits ∧ tagLen.toNat ≤ c.ptBuf.length ∧
      (blockBytes (Config.E key j0 ^^^ accumulateMany h y
          (pad16 (c.ptBuf.take (c.ptBuf.length - tagLen.toNat)) ++
            blockBytes (lenblock aadBits (BitVec.ofNat 64 (8 * (c.ptBuf.length - tagLen.toNat))))))).take tagLen.toNat
        = c.ptBuf.drop (c.ptBuf.length - tagLen.toNat)

/-- R225: INIT and GFMUL, when they complete, resolve an unprobed CAP_STATE to ACCEL or REF as ACCEL_PRESENT says; no
other command writes it, and once resolved none changes it. -/
def Obligations.CapabilityIsWrittenOnce : Prop :=
  ∀ (i : Instr) (s t : State) (r : Response), exec i s = .next t → t.outbox = s.outbox ++ [(s.req.inst, r)] →
    (s.capState ≠ .unprobed → t.capState = s.capState) ∧
    (r.status ≠ .ok → t.capState = s.capState) ∧
    (s.capState = .unprobed → r.status = .ok → (i = .gfmul ∨ ∃ m d tb, i = .init m d tb) →
      t.capState = if s.plat.accelPresent then .accel else .ref) ∧
    (i ≠ .gfmul → (∀ m d tb, i ≠ .init m d tb) → t.capState = s.capState)

/-- No response and no register of an instance depends on CAP_STATE or on ACCEL_PRESENT (R104, R32). -/
def Obligations.CapabilityNeverChangesAResult : Prop :=
  ∀ (i : Instr) (s : State) (cap : CapState) (present : Bool),
    Agree (exec i s) (exec i { s with capState := cap, plat := { s.plat with accelPresent := present } })

/-- In-place operation: whether the host's OUT buffer is apart from A's or exactly on it, a command does the same, and so
for B's (R57, R164, R276). -/
def Obligations.InPlaceChangesNothing : Prop :=
  ∀ (i : Instr) (s : State),
    Agree (exec i { s with req := { s.req with overlapA := .inPlace } })
      (exec i { s with req := { s.req with overlapA := .separate } }) ∧
    Agree (exec i { s with req := { s.req with overlapB := .inPlace } })
      (exec i { s with req := { s.req with overlapB := .separate } })

/-- Two requests to different instances may be issued in either order: every instance ends with the same registers and has
given the same responses (R62). That one inbox serves both instances is the model's choice (log 5). -/
def Obligations.InstancesCommute : Prop :=
  ∀ (s t : State) (r1 r2 : Request) (rest : List HostEvent),
    r1.inst ≠ r2.inst →
    Sys2Proof.core.run 2 { s with inbox := .command r1 :: .command r2 :: rest } = .next t →
    ∃ u : State, Sys2Proof.core.run 2 { s with inbox := .command r2 :: .command r1 :: rest } = .next u ∧
      u.insts = t.insts ∧ u.capState = t.capState ∧ u.plat = t.plat ∧ u.inbox = t.inbox ∧
      ∀ n, u.responsesOf n = t.responsesOf n

/-! ### Byte order and the counter (00_scope.md, 20_memory.md, 43_encrypt.md) -/

/-- `int` of 16 bytes is the big-endian sum of R6, and `blk` is its inverse. -/
def Obligations.BlocksAreBigEndian : Prop :=
  (∀ s : Bytes, s.length = 16 →
    (blockOf s).toNat = ∑ i ∈ Finset.range 16, (s.getD i 0).toNat * 2 ^ (8 * (15 - i))) ∧
  (∀ s : Bytes, s.length = 16 → blockBytes (blockOf s) = s) ∧
  (∀ b : Block, blockOf (blockBytes b) = b)

/-- R53: bytes 0..7 of the length block are BE64(AAD_BITS) and bytes 8..15 are BE64(DATA_BITS). -/
def Obligations.LengthBlockIsBigEndian : Prop :=
  ∀ a c : Count, blockBytes (lenblock a c) = be64 a ++ be64 c

/-- R160: inc32 writes bytes 12..15 with BE32((int(CB)[31:0] + 1) mod 2^32) and leaves bytes 0..11. -/
def Obligations.Inc32StepsOnlyTheCounter : Prop :=
  ∀ cb : Block, blockBytes (inc32 cb) =
    (blockBytes cb).take 12 ++ be32 (BitVec.ofNat 32 ((cb.toNat % 2 ^ 32 + 1) % 2 ^ 32))

/-! ### The multiplier (40_multiplier.md) -/

/-- GFMUL with two 16-byte operands completes in every phase: it emits mul_ref(x, y), writes no context register, and
CAP_STATE only the first time (R106). -/
def Obligations.GfmulEmitsTheProduct : Prop :=
  ∀ (s : State) (c : Context), s.ctx? = some c → s.opA.length = 16 → s.opB.length = 16 →
    s.req.overlapA ≠ .shifted → s.req.overlapB ≠ .shifted →
    exec .gfmul s = .next { s with
      capState := if s.capState = .unprobed then (if s.plat.accelPresent then .accel else .ref) else s.capState
      outbox := s.outbox ++ [(s.req.inst, ⟨.ok, blockBytes (mulRef (blockOf s.opA) (blockOf s.opB)), 0⟩)] }

/-- GFMUL with an operand that is not exactly 16 bytes returns PARAM_INVALID in every phase (R106, R242). -/
def Obligations.GfmulRejectsOtherSizes : Prop :=
  ∀ (s : State) (c : Context), s.ctx? = some c → (s.opA.length ≠ 16 ∨ s.opB.length ≠ 16) →
    exec .gfmul s = .next { s with outbox := s.outbox ++ [(s.req.inst, ⟨.paramInvalid, [], 0⟩)] }

/-- The product distributes over XOR on both sides, ONE is its identity on both sides, and zero annihilates (R105). -/
def Obligations.ProductIsBilinear : Prop :=
  (∀ a b c : Block, mul (a ^^^ b) c = mul a c ^^^ mul b c) ∧
  (∀ a b c : Block, mul a (b ^^^ c) = mul a b ^^^ mul a c) ∧
  (∀ a : Block, mul gfOne a = a ∧ mul a gfOne = a) ∧
  (∀ a : Block, mul 0 a = 0 ∧ mul a 0 = 0)

/-- The product is commutative (R105). -/
def Obligations.ProductCommutes : Prop := ∀ a b : Block, mul a b = mul b a

/-- The product is associative (R105). -/
def Obligations.ProductAssociates : Prop := ∀ a b c : Block, mul (mul a b) c = mul a (mul b c)

/-- The accelerated path's closed form gives the reference path's bits on every input (R102, R104). -/
def Obligations.AcceleratedPathEqualsReference : Prop := ∀ a b : Block, mulAccel a b = mulRef a b

/-! ### GHASH (41_ghash.md) -/

/-- R121: accumulate_many is accumulate once per 16-byte run, lowest offset first, and changes nothing on the empty string. -/
def Obligations.AccumulateManyIsOnePerBlock : Prop :=
  ∀ (h y : Block) (s : Bytes) (n : Nat), s.length = 16 * n →
    accumulateMany h y s =
      (List.range n).foldl (fun acc k => accumulate h acc (blockOf ((s.drop (16 * k)).take 16))) y

/-- R122: pad16 appends 0 to 15 zero bytes so the length is a multiple of 16; an empty string stays empty and a multiple
of 16 is unchanged. -/
def Obligations.PaddingIsShortAndZero : Prop :=
  ∀ s : Bytes, (pad16 s).length % 16 = 0 ∧ (∃ k, k < 16 ∧ pad16 s = s ++ List.replicate k 0) ∧
    (s = [] → pad16 s = []) ∧ (s.length % 16 = 0 → pad16 s = s)

/-- The closed form of the fold: Y0 times H^m, XOR each block X_i times H^(m-i+1), with H^k the k-fold product
(R127). -/
def Obligations.GhashIsThePolynomial : Prop :=
  ∀ (h y : Block) (xs : List Block),
    xs.foldl (accumulate h) y =
      mul y ((mul h)^[xs.length] gfOne) ^^^
        ((xs.zipIdx.map fun p => mul p.1 ((mul h)^[xs.length - p.2] gfOne)).foldl (· ^^^ ·) 0)

/-! ### INIT (42_init.md) -/

/-- R142 to R147: INIT on an idle instance, with legal parameters and the allocation granted, writes every register of the
context, sets PHASE to ACTIVE and returns OK with an empty OUT. -/
def Obligations.InitBuildsTheContext : Prop :=
  ∀ (s : State) (c : Context) (mode : Mode) (dir : Dir) (tagBits : Nat),
    s.ctx? = some c → c.phase = .idle → tagBits ∈ [32, 64, 96, 104, 112, 120, 128] → s.opA ≠ [] →
    ¬ (mode = .gmac ∧ dir = .dec) → 8 * s.opA.length ≤ Config.lenLimitBits → 8 * s.opB.length ≤ Config.lenLimitBits →
    s.req.allocOk = true →
    exec (.init mode dir tagBits) s = .next { s with
      insts := s.insts.set s.req.inst
        { phase := .active
          mode := some mode
          dir := some dir
          key := some s.req.cmd.key
          h := some (Config.E s.req.cmd.key 0)
          y := some (accumulateMany (Config.E s.req.cmd.key 0) 0 (pad16 s.opB))
          cb := some (gcmJ0 (Config.E s.req.cmd.key 0) s.opA)
          j0 := some (gcmJ0 (Config.E s.req.cmd.key 0) s.opA)
          aadBits := some (BitVec.ofNat 64 (8 * s.opB.length))
          dataBits := some 0
          tagLen := some (BitVec.ofNat 5 (tagBits / 8))
          rem := []
          ptBuf := [] }
      capState := if s.capState = .unprobed then (if s.plat.accelPresent then .accel else .ref) else s.capState
      outbox := s.outbox ++ [(s.req.inst, ⟨.ok, [], 0⟩)] }

/-- R141: PHASE is checked first; on an idle instance an illegal TAGBITS, an empty IV, or GMAC with DEC returns
PARAM_INVALID whatever the draw, and writes nothing. -/
def Obligations.InitRejectsBadParameters : Prop :=
  ∀ (s : State) (c : Context) (mode : Mode) (dir : Dir) (tagBits : Nat), s.ctx? = some c →
    (c.phase ≠ .idle → exec (.init mode dir tagBits) s =
      .next { s with outbox := s.outbox ++ [(s.req.inst, ⟨.sequenceError, [], 0⟩)] }) ∧
    (c.phase = .idle → (tagBits ∉ [32, 64, 96, 104, 112, 120, 128] ∨ s.opA = [] ∨ (mode = .gmac ∧ dir = .dec)) →
    exec (.init mode dir tagBits) s =
      .next { s with outbox := s.outbox ++ [(s.req.inst, ⟨.paramInvalid, [], 0⟩)] })

/-- R148: after the parameter checks, a false draw returns RESOURCE_EXHAUSTED, writes nothing, and PHASE stays IDLE. -/
def Obligations.InitWithoutAllocationWritesNothing : Prop :=
  ∀ (s : State) (c : Context) (mode : Mode) (dir : Dir) (tagBits : Nat),
    s.ctx? = some c → c.phase = .idle → tagBits ∈ [32, 64, 96, 104, 112, 120, 128] → s.opA ≠ [] →
    ¬ (mode = .gmac ∧ dir = .dec) → 8 * s.opA.length ≤ Config.lenLimitBits → 8 * s.opB.length ≤ Config.lenLimitBits →
    s.req.allocOk = false →
    exec (.init mode dir tagBits) s =
      .next { s with outbox := s.outbox ++ [(s.req.inst, ⟨.resourceExhausted, [], 0⟩)] }

/-- R58: INIT, ENC_UPDATE and DEC_UPDATE are refused when a bit count passes LEN_LIMIT_BITS, once the checks before it in
R250's order have passed. -/
def Obligations.LengthLimitIsRefused : Prop :=
  (∀ (s : State) (c : Context) (mode : Mode) (dir : Dir) (tagBits : Nat),
    s.ctx? = some c → c.phase = .idle → tagBits ∈ [32, 64, 96, 104, 112, 120, 128] → s.opA ≠ [] →
    ¬ (mode = .gmac ∧ dir = .dec) →
    (2 ^ 64 - 1 < 8 * s.opA.length ∨ 2 ^ 64 - 1 < 8 * s.opB.length) →
    exec (.init mode dir tagBits) s = .refused .lengthLimit) ∧
  (∀ (s : State) (v : Live) (rem ptBuf : Bytes),
    s.ctx? = some (v.context rem ptBuf) → v.dir = .enc → v.mode = .gcm →
    2 ^ 64 - 1 < v.dataBits.toNat + 8 * (rem.length + s.opA.length) → exec .encUpdate s = .refused .lengthLimit) ∧
  (∀ (s : State) (v : Live) (rem ptBuf : Bytes),
    s.ctx? = some (v.context rem ptBuf) → v.dir = .dec → s.opA ≠ [] →
    2 ^ 64 - 1 < 8 * (ptBuf.length + s.opA.length) → exec .decUpdate s = .refused .lengthLimit)

/-- GFMUL is refused when it would emit its product over operand A or operand B at a different offset, ENC_UPDATE when it
would emit bytes over operand A so (R57, R276; log 4). -/
def Obligations.PartialOverlapIsRefused : Prop :=
  (∀ (s : State) (c : Context), s.ctx? = some c → s.opA.length = 16 → s.opB.length = 16 →
    (s.req.overlapA = .shifted ∨ s.req.overlapB = .shifted) →
    exec .gfmul s = .refused .partialOverlap) ∧
  (∀ (s : State) (v : Live) (rem ptBuf : Bytes),
    s.ctx? = some (v.context rem ptBuf) → v.dir = .enc → v.mode = .gcm →
    v.dataBits.toNat + 8 * (rem.length + s.opA.length) ≤ Config.lenLimitBits → 16 ≤ rem.length + s.opA.length →
    16 * ((rem.length + s.opA.length) / 16) ≤ s.req.cmd.outcap.toNat → s.req.overlapA = .shifted →
    exec .encUpdate s = .refused .partialOverlap)

/-! ### The encrypt path (43_encrypt.md) -/

/-- ENC_UPDATE with enough output space: the whole blocks of REM || A are encrypted with consecutive counters and emitted,
CB steps once a block, DATA_BITS grows by 128 a block, Y folds the ciphertext, REM keeps the rest, and nothing else
changes (R161, R162). -/
def Obligations.EncUpdateEncryptsWholeBlocks : Prop :=
  ∀ (s : State) (v : Live) (rem ptBuf : Bytes),
    s.ctx? = some (v.context rem ptBuf) → v.dir = .enc → v.mode = .gcm →
    v.dataBits.toNat + 8 * (rem.length + s.opA.length) ≤ Config.lenLimitBits →
    16 * ((rem.length + s.opA.length) / 16) ≤ s.req.cmd.outcap.toNat →
    (s.req.overlapA = .shifted → rem.length + s.opA.length < 16) →
    exec .encUpdate s =
      (let nb := (rem.length + s.opA.length) / 16
       let ct := ctrXor Config.E v.key v.cb ((rem ++ s.opA).take (16 * nb))
       .next { s with
        insts := s.insts.set s.req.inst
          ({ v with cb := inc32^[nb] v.cb
                    y := accumulateMany v.h v.y ct
                    dataBits := v.dataBits + BitVec.ofNat 64 (128 * nb) }.context ((rem ++ s.opA).drop (16 * nb)) ptBuf)
        outbox := s.outbox ++ [(s.req.inst, ⟨.ok, ct, 0⟩)] })

/-- R163: with OUTCAP below 16·nb ENC_UPDATE returns LENGTH_RANGE with RLEN = 16·nb and changes nothing. -/
def Obligations.EncUpdateNeedsOutputSpace : Prop :=
  ∀ (s : State) (v : Live) (rem ptBuf : Bytes),
    s.ctx? = some (v.context rem ptBuf) → v.dir = .enc → v.mode = .gcm →
    v.dataBits.toNat + 8 * (rem.length + s.opA.length) ≤ Config.lenLimitBits →
    s.req.cmd.outcap.toNat < 16 * ((rem.length + s.opA.length) / 16) →
    exec .encUpdate s = .next { s with outbox := s.outbox ++
      [(s.req.inst, ⟨.lengthRange, [], BitVec.ofNat 64 (16 * ((rem.length + s.opA.length) / 16))⟩)] }

/-- Streaming associativity (R172): successive ENC_UPDATEs, each with enough space, leave the registers of one ENC_UPDATE
with the concatenated operand, and their OUTs concatenate to its OUT, whatever the split. -/
def Obligations.EncUpdateSplitsAnywhere : Prop :=
  ∀ (s : State) (v : Live) (rem ptBuf : Bytes) (pieces : List (Bytes × Count)) (cap : Count),
    s.ctx? = some (v.context rem ptBuf) → v.dir = .enc → v.mode = .gcm → rem.length < 16 → s.req.overlapA ≠ .shifted →
    v.dataBits.toNat + 8 * (rem.length + (pieces.map Prod.fst).flatten.length) ≤ Config.lenLimitBits →
    (∀ p ∈ pieces, rem.length + (pieces.map Prod.fst).flatten.length ≤ p.2.toNat) →
    rem.length + (pieces.map Prod.fst).flatten.length ≤ cap.toNat →
    ∃ (t u : State) (outs : List Bytes),
      feed .encUpdate s pieces = .next t ∧
      exec .encUpdate (s.withOperand (pieces.map Prod.fst).flatten cap) = .next u ∧
      t.insts = u.insts ∧ outs.length = pieces.length ∧
      t.outbox = s.outbox ++ outs.map (fun o => (s.req.inst, ⟨.ok, o, 0⟩)) ∧
      u.outbox = s.outbox ++ [(s.req.inst, ⟨.ok, outs.flatten, 0⟩)]

/-- ENC_FINAL in GCM mode, with enough space: OUT is REM encrypted with the next counter, never padded, then the leading
TAG_LEN bytes of E(KEY, J0) XOR Y, where Y has folded the padded ciphertext and the length block; the context is
released (R165, R167, R168, R171). -/
def Obligations.EncFinalEmitsRestAndTag : Prop :=
  ∀ (s : State) (v : Live) (rem ptBuf : Bytes),
    s.ctx? = some (v.context rem ptBuf) → v.dir = .enc → v.mode = .gcm → rem.length < 16 →
    rem.length + v.tagLen.toNat ≤ s.req.cmd.outcap.toNat →
    exec .encFinal s =
      (let ct := ctrXor Config.E v.key v.cb rem
       .next { s with
        insts := s.insts.set s.req.inst Context.reset
        outbox := s.outbox ++ [(s.req.inst, ⟨.ok, ct ++
          (blockBytes (Config.E v.key v.j0 ^^^ accumulateMany v.h v.y
            (pad16 ct ++ blockBytes (lenblock v.aadBits (v.dataBits + BitVec.ofNat 64 (8 * rem.length)))))).take
              v.tagLen.toNat, 0⟩)] })

/-- ENC_FINAL in GMAC mode with REM empty: OUT is the tag over the AAD alone (R169). -/
def Obligations.GmacFinalEmitsTheTag : Prop :=
  ∀ (s : State) (v : Live) (ptBuf : Bytes),
    s.ctx? = some (v.context [] ptBuf) → v.dir = .enc → v.mode = .gmac →
    v.tagLen.toNat ≤ s.req.cmd.outcap.toNat →
    exec .encFinal s = .next { s with
      insts := s.insts.set s.req.inst Context.reset
      outbox := s.outbox ++ [(s.req.inst, ⟨.ok,
        (blockBytes (Config.E v.key v.j0 ^^^ mul (v.y ^^^ lenblock v.aadBits v.dataBits) v.h)).take v.tagLen.toNat, 0⟩)] }

/-- R166: with OUTCAP below |REM| + TAG_LEN ENC_FINAL returns LENGTH_RANGE with that size, and changes nothing. -/
def Obligations.EncFinalNeedsOutputSpace : Prop :=
  ∀ (s : State) (v : Live) (rem ptBuf : Bytes),
    s.ctx? = some (v.context rem ptBuf) → v.dir = .enc → (v.mode = .gmac → rem = []) →
    s.req.cmd.outcap.toNat < rem.length + v.tagLen.toNat →
    exec .encFinal s = .next { s with outbox := s.outbox ++
      [(s.req.inst, ⟨.lengthRange, [], BitVec.ofNat 64 (rem.length + v.tagLen.toNat)⟩)] }

/-- R170, R246: ENC_FINAL in GMAC mode with bytes in REM returns INTERNAL_CONSISTENCY, emits nothing, sets PHASE to FAULT
and keeps every other register. -/
def Obligations.GmacRemainderEndsInFault : Prop :=
  ∀ (s : State) (v : Live) (rem ptBuf : Bytes),
    s.ctx? = some (v.context rem ptBuf) → v.dir = .enc → v.mode = .gmac → rem ≠ [] →
    exec .encFinal s = .next { s with
      insts := s.insts.set s.req.inst { v.context rem ptBuf with phase := .fault }
      outbox := s.outbox ++ [(s.req.inst, ⟨.internalConsistency, [], 0⟩)] }

/-! ### The decrypt path (44_decrypt.md) -/

/-- R191: DEC_UPDATE within the capacity and with the allocation granted appends A to PT_BUF byte for byte, returns OK with
an empty OUT, and changes nothing else. -/
def Obligations.DecUpdateAppends : Prop :=
  ∀ (s : State) (v : Live) (rem ptBuf : Bytes),
    s.ctx? = some (v.context rem ptBuf) → v.dir = .dec →
    8 * (ptBuf.length + s.opA.length) ≤ Config.lenLimitBits → ptBuf.length + s.opA.length ≤ s.plat.ptBufCap →
    s.req.allocOk = true →
    exec .decUpdate s = .next { s with
      insts := s.insts.set s.req.inst (v.context rem (ptBuf ++ s.opA))
      outbox := s.outbox ++ [(s.req.inst, ⟨.ok, [], 0⟩)] }

/-- DEC_UPDATE with an empty operand is OK whatever the capacity and the draw, and changes no register (R190, D37). -/
def Obligations.DecUpdateOfNothingIsOk : Prop :=
  ∀ (s : State) (v : Live) (rem ptBuf : Bytes),
    s.ctx? = some (v.context rem ptBuf) → v.dir = .dec → s.opA = [] →
    exec .decUpdate s = .next { s with outbox := s.outbox ++ [(s.req.inst, ⟨.ok, [], 0⟩)] }

/-- R192: DEC_UPDATE returns RESOURCE_EXHAUSTED when the grown buffer would pass PT_BUF_CAP or the draw is false; every
register is unchanged. -/
def Obligations.DecUpdateWithoutRoomChangesNothing : Prop :=
  ∀ (s : State) (v : Live) (rem ptBuf : Bytes),
    s.ctx? = some (v.context rem ptBuf) → v.dir = .dec → s.opA ≠ [] →
    8 * (ptBuf.length + s.opA.length) ≤ Config.lenLimitBits →
    (s.plat.ptBufCap < ptBuf.length + s.opA.length ∨ s.req.allocOk = false) →
    exec .decUpdate s = .next { s with outbox := s.outbox ++ [(s.req.inst, ⟨.resourceExhausted, [], 0⟩)] }

/-- Any split of the input over DEC_UPDATEs that the capacity and the draw allow leaves the same PT_BUF as their
concatenation, and no DEC_UPDATE emits a byte (R190, R191, S3). -/
def Obligations.DecUpdateSplitsAnywhere : Prop :=
  ∀ (s : State) (v : Live) (rem ptBuf : Bytes) (pieces : List (Bytes × Count)),
    s.ctx? = some (v.context rem ptBuf) → v.dir = .dec → s.req.allocOk = true →
    8 * (ptBuf.length + (pieces.map Prod.fst).flatten.length) ≤ Config.lenLimitBits →
    ptBuf.length + (pieces.map Prod.fst).flatten.length ≤ s.plat.ptBufCap →
    ∃ t : State, feed .decUpdate s pieces = .next t ∧
      t.insts = s.insts.set s.req.inst (v.context rem (ptBuf ++ (pieces.map Prod.fst).flatten)) ∧
      t.outbox = s.outbox ++ List.replicate pieces.length (s.req.inst, ⟨.ok, [], 0⟩)

/-- DEC_FINAL with room for the plaintext and a matching tag: OUT is the ciphertext XOR the same keystream as on the
encrypt path, the trailing partial block included, and the context is released (R193, R196). -/
def Obligations.DecFinalReleasesPlaintextOnMatch : Prop :=
  ∀ (s : State) (v : Live) (rem ct tag : Bytes),
    s.ctx? = some (v.context rem (ct ++ tag)) → v.dir = .dec → tag.length = v.tagLen.toNat →
    ct.length ≤ s.req.cmd.outcap.toNat →
    tag = (blockBytes (Config.E v.key v.j0 ^^^ accumulateMany v.h v.y
      (pad16 ct ++ blockBytes (lenblock v.aadBits (BitVec.ofNat 64 (8 * ct.length)))))).take v.tagLen.toNat →
    exec .decFinal s = .next { s with
      insts := s.insts.set s.req.inst Context.reset
      outbox := s.outbox ++ [(s.req.inst, ⟨.ok, ctrXor Config.E v.key v.cb ct, 0⟩)] }

/-- R197: DEC_FINAL with a tag that differs returns AUTH_FAILURE with OUT empty and RLEN 0, and releases the context. -/
def Obligations.DecFinalEmitsNothingOnMismatch : Prop :=
  ∀ (s : State) (v : Live) (rem ct tag : Bytes),
    s.ctx? = some (v.context rem (ct ++ tag)) → v.dir = .dec → tag.length = v.tagLen.toNat → tag.length ≤ 16 →
    ct.length ≤ s.req.cmd.outcap.toNat →
    tag ≠ (blockBytes (Config.E v.key v.j0 ^^^ accumulateMany v.h v.y
      (pad16 ct ++ blockBytes (lenblock v.aadBits (BitVec.ofNat 64 (8 * ct.length)))))).take v.tagLen.toNat →
    exec .decFinal s = .next { s with
      insts := s.insts.set s.req.inst Context.reset
      outbox := s.outbox ++ [(s.req.inst, ⟨.authFailure, [], 0⟩)] }

/-- R194: DEC_FINAL checks the phase, then the length, then the output space, before any hashing, and the length errors
leave the context ACTIVE and unchanged. -/
def Obligations.DecFinalChecksBeforeHashing : Prop :=
  (∀ (s : State) (c : Context), s.ctx? = some c → c.phase ≠ .active →
    exec .decFinal s = .next { s with outbox := s.outbox ++ [(s.req.inst, ⟨.sequenceError, [], 0⟩)] }) ∧
  (∀ (s : State) (v : Live) (rem ptBuf : Bytes),
    s.ctx? = some (v.context rem ptBuf) → v.dir = .dec →
    (ptBuf.length < v.tagLen.toNat →
      exec .decFinal s = .next { s with outbox := s.outbox ++ [(s.req.inst, ⟨.dataLenRange, [], 0⟩)] }) ∧
    (v.tagLen.toNat ≤ ptBuf.length → s.req.cmd.outcap.toNat < ptBuf.length - v.tagLen.toNat →
      exec .decFinal s = .next { s with outbox := s.outbox ++
        [(s.req.inst, ⟨.lengthRange, [], BitVec.ofNat 64 (ptBuf.length - v.tagLen.toNat)⟩)] }))

/-- R195: tags_equal is true exactly when the tags agree in every byte. -/
def Obligations.TagsEqualComparesEveryByte : Prop :=
  ∀ t u : Bytes, t.length = u.length →
    (tagsEqual t u = true ↔ ∀ i, i < t.length → t.getD i 0 = u.getD i 0)

/-! ### ABORT (45_control.md) -/

/-- R224: ABORT in every phase sets PHASE to IDLE, empties REM and PT_BUF, leaves every other context register without a
value, does not touch CAP_STATE, and returns OK with an empty OUT. -/
def Obligations.AbortReleasesTheContext : Prop :=
  ∀ (s : State) (c : Context), s.ctx? = some c →
    exec .abort s = .next { s with
      insts := s.insts.set s.req.inst
        { phase := .idle, rem := [], ptBuf := [], mode := none, dir := none, key := none, h := none, y := none,
          cb := none, j0 := none, aadBits := none, dataBits := none, tagLen := none }
      outbox := s.outbox ++ [(s.req.inst, ⟨.ok, [], 0⟩)] }

/-! ### Whole operations (30_encoding.md R83, 43_encrypt.md R172, 44_decrypt.md R198, R199) -/

/-- GCM_SEAL on an idle instance returns the ciphertext and tag of GCM's one-shot formula, and releases the context
(R83, R172). Its draw, the lie of its buffers and its commands being issued one step each, ahead of the rest of the inbox,
are the model's (log 20). -/
def Obligations.SealIsGcm : Prop :=
  ∀ (p : PseudoArgs) (s : State) (c : Context),
    s.insts[p.inst]? = some c → c.phase = .idle → p.tagBits ∈ [32, 64, 96, 104, 112, 120, 128] → p.iv ≠ [] →
    8 * p.iv.length ≤ Config.lenLimitBits → 8 * p.aad.length ≤ Config.lenLimitBits →
    8 * p.data.length ≤ Config.lenLimitBits → p.initDraw = true → p.overlapA ≠ .shifted →
    p.data.length + p.tagBits / 8 ≤ p.cap.toNat →
    ∃ t : State, gcmSeal p s = .next (t, ⟨.ok,
        gcmCiphertext Config.E p.key p.iv p.data ++
          gcmTagOf Config.E p.key p.iv p.aad (gcmCiphertext Config.E p.key p.iv p.data) (p.tagBits / 8), 0⟩) ∧
      t.insts = s.insts.set p.inst Context.reset

/-- Round trip (R198): GCM_OPEN of what GCM_SEAL returned, with the same KEY, IV, AAD and tag size, returns OK and the
plaintext. The pseudo-commands' draws, buffers and order of issue are the model's (log 20). -/
def Obligations.OpenReturnsWhatSealSealed : Prop :=
  ∀ (p : PseudoArgs) (s : State) (c : Context),
    s.insts[p.inst]? = some c → c.phase = .idle → p.tagBits ∈ [32, 64, 96, 104, 112, 120, 128] → p.iv ≠ [] →
    8 * p.iv.length ≤ Config.lenLimitBits → 8 * p.aad.length ≤ Config.lenLimitBits →
    8 * (p.data.length + 16) ≤ Config.lenLimitBits → p.data.length + 16 ≤ s.plat.ptBufCap →
    p.initDraw = true → p.updateDraw = true → p.overlapA ≠ .shifted → p.data.length + p.tagBits / 8 ≤ p.cap.toNat →
    ∃ (t u : State) (r : Response), gcmSeal p s = .next (t, r) ∧ r.status = .ok ∧
      gcmOpen { p with data := r.out } t = .next (u, ⟨.ok, p.data, 0⟩)

/-- GMAC verification (R199): GMAC_VERIFY of a received string of TAG_LEN bytes returns OK when it is the tag GMAC_TAG
returns and AUTH_FAILURE otherwise; a shorter string gets DATA_LEN_RANGE, and a longer one, with no output space for the
rest, LENGTH_RANGE with the excess as RLEN. The pseudo-commands' draws and order of issue are the model's (log 20). -/
def Obligations.GmacVerifyAcceptsExactlyTheTag : Prop :=
  ∀ (p : PseudoArgs) (s : State) (c : Context),
    s.insts[p.inst]? = some c → c.phase = .idle → p.tagBits ∈ [32, 64, 96, 104, 112, 120, 128] → p.iv ≠ [] →
    8 * p.iv.length ≤ Config.lenLimitBits → 8 * p.aad.length ≤ Config.lenLimitBits →
    8 * p.data.length ≤ Config.lenLimitBits → p.data.length ≤ s.plat.ptBufCap →
    p.initDraw = true → p.updateDraw = true → p.tagBits / 8 ≤ p.cap.toNat →
    ∃ (t u : State) (tag : Bytes), gmacTag p s = .next (t, ⟨.ok, tag, 0⟩) ∧ tag.length = p.tagBits / 8 ∧
      gmacVerify p s = .next (u,
        if p.data.length < p.tagBits / 8 then ⟨.dataLenRange, [], 0⟩
        else if p.tagBits / 8 < p.data.length then
          ⟨.lengthRange, [], BitVec.ofNat 64 (p.data.length - p.tagBits / 8)⟩
        else if p.data = tag then ⟨.ok, [], 0⟩
        else ⟨.authFailure, [], 0⟩)
end

