-- ==== Sys2Proof/Laws/State.lean ====
section
/-! SUPPORT. One lemma per field per update of State and of a live context, true by rfl, so that no later proof unfolds a
record update. -/

namespace Sys2Proof.Machine

@[simp] theorem State.setCtx_insts (s : State) (c : Context) : (s.setCtx c).insts = s.insts.set s.req.inst c := rfl
@[simp] theorem State.setCtx_capState (s : State) (c : Context) : (s.setCtx c).capState = s.capState := rfl
@[simp] theorem State.setCtx_plat (s : State) (c : Context) : (s.setCtx c).plat = s.plat := rfl
@[simp] theorem State.setCtx_inbox (s : State) (c : Context) : (s.setCtx c).inbox = s.inbox := rfl
@[simp] theorem State.setCtx_req (s : State) (c : Context) : (s.setCtx c).req = s.req := rfl
@[simp] theorem State.setCtx_outbox (s : State) (c : Context) : (s.setCtx c).outbox = s.outbox := rfl

@[simp] theorem State.respond_insts (s : State) (r : Response) : (s.respond r).insts = s.insts := rfl
@[simp] theorem State.respond_capState (s : State) (r : Response) : (s.respond r).capState = s.capState := rfl
@[simp] theorem State.respond_plat (s : State) (r : Response) : (s.respond r).plat = s.plat := rfl
@[simp] theorem State.respond_inbox (s : State) (r : Response) : (s.respond r).inbox = s.inbox := rfl
@[simp] theorem State.respond_req (s : State) (r : Response) : (s.respond r).req = s.req := rfl
@[simp] theorem State.respond_outbox (s : State) (r : Response) : (s.respond r).outbox = s.outbox ++ [(s.req.inst, r)] := rfl

@[simp] theorem State.accept_insts (s : State) (r : Request) (rest : List HostEvent) : (s.accept r rest).insts = s.insts := rfl
@[simp] theorem State.accept_capState (s : State) (r : Request) (rest : List HostEvent) : (s.accept r rest).capState = s.capState := rfl
@[simp] theorem State.accept_plat (s : State) (r : Request) (rest : List HostEvent) : (s.accept r rest).plat = s.plat := rfl
@[simp] theorem State.accept_inbox (s : State) (r : Request) (rest : List HostEvent) : (s.accept r rest).inbox = rest := rfl
@[simp] theorem State.accept_req (s : State) (r : Request) (rest : List HostEvent) : (s.accept r rest).req = r := rfl
@[simp] theorem State.accept_outbox (s : State) (r : Request) (rest : List HostEvent) : (s.accept r rest).outbox = s.outbox := rfl

@[simp] theorem State.resetInstance_insts (s : State) (n : Nat) : (s.resetInstance n).insts = s.insts.set n Context.reset := rfl
@[simp] theorem State.resetInstance_capState (s : State) (n : Nat) : (s.resetInstance n).capState = s.capState := rfl
@[simp] theorem State.resetInstance_plat (s : State) (n : Nat) : (s.resetInstance n).plat = s.plat := rfl
@[simp] theorem State.resetInstance_inbox (s : State) (n : Nat) : (s.resetInstance n).inbox = s.inbox := rfl
@[simp] theorem State.resetInstance_req (s : State) (n : Nat) : (s.resetInstance n).req = s.req := rfl
@[simp] theorem State.resetInstance_outbox (s : State) (n : Nat) : (s.resetInstance n).outbox = s.outbox := rfl

@[simp] theorem State.resetPlatform_insts (s : State) : (s.resetPlatform).insts = s.insts.map fun _ => Context.reset := rfl
@[simp] theorem State.resetPlatform_capState (s : State) : (s.resetPlatform).capState = .unprobed := rfl
@[simp] theorem State.resetPlatform_plat (s : State) : (s.resetPlatform).plat = s.plat := rfl
@[simp] theorem State.resetPlatform_inbox (s : State) : (s.resetPlatform).inbox = s.inbox := rfl
@[simp] theorem State.resetPlatform_req (s : State) : (s.resetPlatform).req = s.req := rfl
@[simp] theorem State.resetPlatform_outbox (s : State) : (s.resetPlatform).outbox = s.outbox := rfl

@[simp] theorem State.withFetchWord_insts (s : State) (nbits w : Nat) : (s.withFetchWord nbits w).insts = s.insts := rfl
@[simp] theorem State.withFetchWord_capState (s : State) (nbits w : Nat) : (s.withFetchWord nbits w).capState = s.capState := rfl
@[simp] theorem State.withFetchWord_plat (s : State) (nbits w : Nat) : (s.withFetchWord nbits w).plat = s.plat := rfl
@[simp] theorem State.withFetchWord_inbox (s : State) (nbits w : Nat) : (s.withFetchWord nbits w).inbox = placeWord (BitVec.ofNat 32 (w % 2 ^ nbits)) s.inbox := rfl
@[simp] theorem State.withFetchWord_req (s : State) (nbits w : Nat) : (s.withFetchWord nbits w).req = s.req := rfl
@[simp] theorem State.withFetchWord_outbox (s : State) (nbits w : Nat) : (s.withFetchWord nbits w).outbox = s.outbox := rfl

@[simp] theorem State.withOperand_insts (s : State) (a : Bytes) (cap : Count) : (s.withOperand a cap).insts = s.insts := rfl
@[simp] theorem State.withOperand_capState (s : State) (a : Bytes) (cap : Count) : (s.withOperand a cap).capState = s.capState := rfl
@[simp] theorem State.withOperand_plat (s : State) (a : Bytes) (cap : Count) : (s.withOperand a cap).plat = s.plat := rfl
@[simp] theorem State.withOperand_inbox (s : State) (a : Bytes) (cap : Count) : (s.withOperand a cap).inbox = s.inbox := rfl
@[simp] theorem State.withOperand_req (s : State) (a : Bytes) (cap : Count) : (s.withOperand a cap).req = { s.req with cmd := { s.req.cmd with a := a, outcap := cap } } := rfl
@[simp] theorem State.withOperand_outbox (s : State) (a : Bytes) (cap : Count) : (s.withOperand a cap).outbox = s.outbox := rfl

/-! Resolving the capability writes CAP_STATE only. -/

theorem State.resolveCapability_eq (s : State) : s.resolveCapability =
    { s with capState := if s.capState = .unprobed then s.plat.capability else s.capState } := by
  unfold State.resolveCapability
  split <;> simp_all

@[simp] theorem State.resolveCapability_insts (s : State) : s.resolveCapability.insts = s.insts := by
  rw [State.resolveCapability_eq]
@[simp] theorem State.resolveCapability_plat (s : State) : s.resolveCapability.plat = s.plat := by
  rw [State.resolveCapability_eq]
@[simp] theorem State.resolveCapability_inbox (s : State) : s.resolveCapability.inbox = s.inbox := by
  rw [State.resolveCapability_eq]
@[simp] theorem State.resolveCapability_req (s : State) : s.resolveCapability.req = s.req := by
  rw [State.resolveCapability_eq]
@[simp] theorem State.resolveCapability_outbox (s : State) : s.resolveCapability.outbox = s.outbox := by
  rw [State.resolveCapability_eq]

theorem State.resolveCapability_capState (s : State) : s.resolveCapability.capState =
    if s.capState = .unprobed then s.plat.capability else s.capState := by
  rw [State.resolveCapability_eq]

/-! The registers of a live context. The parentheses keep simp from using these by definitional unfolding, which would
leave the conditions' decision procedures behind. -/

@[simp] theorem Live.context_phase (v : Live) (rem pt : Bytes) : (v.context rem pt).phase = .active := (rfl)
@[simp] theorem Live.context_mode (v : Live) (rem pt : Bytes) : (v.context rem pt).mode = some v.mode := (rfl)
@[simp] theorem Live.context_dir (v : Live) (rem pt : Bytes) : (v.context rem pt).dir = some v.dir := (rfl)
@[simp] theorem Live.context_key (v : Live) (rem pt : Bytes) : (v.context rem pt).key = some v.key := (rfl)
@[simp] theorem Live.context_h (v : Live) (rem pt : Bytes) : (v.context rem pt).h = some v.h := (rfl)
@[simp] theorem Live.context_y (v : Live) (rem pt : Bytes) : (v.context rem pt).y = some v.y := (rfl)
@[simp] theorem Live.context_cb (v : Live) (rem pt : Bytes) : (v.context rem pt).cb = some v.cb := (rfl)
@[simp] theorem Live.context_j0 (v : Live) (rem pt : Bytes) : (v.context rem pt).j0 = some v.j0 := (rfl)
@[simp] theorem Live.context_aadBits (v : Live) (rem pt : Bytes) : (v.context rem pt).aadBits = some v.aadBits := (rfl)
@[simp] theorem Live.context_dataBits (v : Live) (rem pt : Bytes) : (v.context rem pt).dataBits = some v.dataBits := (rfl)
@[simp] theorem Live.context_tagLen (v : Live) (rem pt : Bytes) : (v.context rem pt).tagLen = some v.tagLen := (rfl)
@[simp] theorem Live.context_rem (v : Live) (rem pt : Bytes) : (v.context rem pt).rem = rem := (rfl)
@[simp] theorem Live.context_ptBuf (v : Live) (rem pt : Bytes) : (v.context rem pt).ptBuf = pt := (rfl)

@[simp] theorem Context.reset_phase : Context.reset.phase = .idle := rfl
@[simp] theorem Context.reset_rem : Context.reset.rem = [] := rfl
@[simp] theorem Context.reset_ptBuf : Context.reset.ptBuf = [] := rfl
@[simp] theorem release_eq : release = Context.reset := rfl

end Sys2Proof.Machine
end

