-- ==== Sys2Proof/Laws/Ops.lean ====
section
/-! SUPPORT. What each shared operation can do, said once: the provers cite these instead of unfolding the operations. -/

namespace Sys2Proof.Machine

/-! ### Reading a register that can hold no value (R11) -/

@[simp] theorem need_some {α : Type} (r : Reg) (a : α) (k : α → Result) : need r (some a) k = k a := rfl

@[simp] theorem need_none {α : Type} (r : Reg) (k : α → Result) : need r none k = .fault (.noValue r) := rfl

theorem need_next {α : Type} {r : Reg} {v : Option α} {k : α → Result} {t : State} (h : need r v k = .next t) :
    ∃ a, v = some a ∧ k a = .next t := by
  cases v with
  | none => exact absurd h (by simp)
  | some a => exact ⟨a, rfl, h⟩

theorem need_fault {α : Type} {r : Reg} {v : Option α} {k : α → Result} {f : Fault} (h : need r v k = .fault f) :
    (v = none ∧ f = .noValue r) ∨ ∃ a, v = some a ∧ k a = .fault f := by
  cases v with
  | none => exact .inl ⟨rfl, by simpa using h.symm⟩
  | some a => exact .inr ⟨a, rfl, h⟩

theorem need_refused {α : Type} {r : Reg} {v : Option α} {k : α → Result} {q : Refusal} (h : need r v k = .refused q) :
    ∃ a, v = some a ∧ k a = .refused q := by
  cases v with
  | none => exact absurd h (by simp)
  | some a => exact ⟨a, rfl, h⟩

/-! ### The addressed context (R70, R256) -/

theorem State.ctx?_eq (s : State) : s.ctx? = s.insts[s.req.inst]? := rfl

theorem State.ctx?_lt {s : State} {c : Context} (h : s.ctx? = some c) : s.req.inst < s.insts.length := by
  obtain ⟨hlt, -⟩ := List.getElem?_eq_some_iff.1 h
  exact hlt

theorem State.withCtx_some {s : State} {c : Context} (h : s.ctx? = some c) (k : Context → Result) :
    s.withCtx k = k c := by
  simp [State.withCtx, h]

theorem State.withCtx_none {s : State} (h : s.ctx? = none) (k : Context → Result) :
    s.withCtx k = .refused .noSuchInstance := by
  simp [State.withCtx, h]

theorem State.withCtx_next {s t : State} {k : Context → Result} (h : s.withCtx k = .next t) :
    ∃ c, s.ctx? = some c ∧ k c = .next t := by
  unfold State.withCtx at h
  split at h
  · exact ⟨_, ‹_›, h⟩
  · cases h

theorem State.withCtx_fault {s : State} {k : Context → Result} {f : Fault} (h : s.withCtx k = .fault f) :
    ∃ c, s.ctx? = some c ∧ k c = .fault f := by
  unfold State.withCtx at h
  split at h
  · exact ⟨_, ‹_›, h⟩
  · cases h

theorem State.withCtx_refused {s : State} {k : Context → Result} {q : Refusal} (h : s.withCtx k = .refused q) :
    (s.ctx? = none ∧ q = .noSuchInstance) ∨ ∃ c, s.ctx? = some c ∧ k c = .refused q := by
  unfold State.withCtx at h
  split at h
  · exact .inr ⟨_, ‹_›, h⟩
  · exact .inl ⟨‹_›, by cases h; rfl⟩

@[simp] theorem State.ctx?_respond (s : State) (r : Response) : (s.respond r).ctx? = s.ctx? := rfl

@[simp] theorem State.ctx?_resolveCapability (s : State) : s.resolveCapability.ctx? = s.ctx? := by
  simp [State.ctx?]

theorem State.ctx?_setCtx {s : State} {c : Context} (h : s.ctx? = some c) (d : Context) :
    (s.setCtx d).ctx? = some d := by
  simp [State.ctx?, List.getElem?_set_self (State.ctx?_lt h)]

theorem State.setCtx_same {s : State} {c : Context} (h : s.ctx? = some c) : s.setCtx c = s := by
  obtain ⟨hlt, he⟩ := List.getElem?_eq_some_iff.1 h
  simp [State.setCtx, ← he]

/-! ### Responding (R9, R75, R226, R241) -/

theorem State.raise_eq (s : State) (status : Status) (rlen : Count) :
    s.raise status rlen = .next (s.respond ⟨status, [], rlen⟩) := rfl

theorem State.finish_eq (s : State) (c : Context) (out : Bytes) :
    s.finish c out = .next ((s.setCtx c).respond ⟨.ok, out, 0⟩) := rfl

theorem State.raiseWith_eq (s : State) (c : Context) (status : Status) :
    s.raiseWith c status = .next ((s.setCtx c).respond ⟨status, [], 0⟩) := rfl

theorem State.finish_same {s : State} {c : Context} (h : s.ctx? = some c) (out : Bytes) :
    s.finish c out = .next (s.respond ⟨.ok, out, 0⟩) := by
  rw [State.finish_eq, State.setCtx_same h]

/-! ### The guards (R140, R162, R165, R190, R193) -/

@[simp] theorem State.requireIdle_idle (s : State) {c : Context} (h : c.phase = .idle) (k : Result) :
    s.requireIdle c k = k := by
  simp [State.requireIdle, h]

@[simp] theorem State.requireIdle_busy (s : State) {c : Context} (h : c.phase ≠ .idle) (k : Result) :
    s.requireIdle c k = s.raise .sequenceError := by
  simp [State.requireIdle, h]

theorem State.requireActive_ok (s : State) {c : Context} {dir : Dir} (h : c.phase = .active) (hd : c.dir = some dir)
    (k : Result) : s.requireActive c dir k = k := by
  simp [State.requireActive, h, hd]

theorem State.requireActive_inactive (s : State) {c : Context} (dir : Dir) (h : c.phase ≠ .active) (k : Result) :
    s.requireActive c dir k = s.raise .sequenceError := by
  simp [State.requireActive, h]

theorem State.requireActive_otherDir (s : State) {c : Context} {dir d : Dir} (h : c.phase = .active)
    (hd : c.dir = some d) (hne : d ≠ dir) (k : Result) : s.requireActive c dir k = s.raise .sequenceError := by
  simp [State.requireActive, h, hd, hne]

/-- All that the guard of the finalizers and of DEC_UPDATE can do. -/
theorem State.requireActive_cases (s : State) (c : Context) (dir : Dir) (k : Result) :
    (c.phase = .active ∧ c.dir = some dir ∧ s.requireActive c dir k = k) ∨
    ((c.phase ≠ .active ∨ ∃ d, c.dir = some d ∧ d ≠ dir) ∧ s.requireActive c dir k = s.raise .sequenceError) ∨
    (c.phase = .active ∧ c.dir = none ∧ s.requireActive c dir k = .fault (.noValue .dir)) := by
  by_cases hp : c.phase = .active
  · cases hd : c.dir with
    | none => exact .inr (.inr ⟨hp, rfl, by simp [State.requireActive, hp, hd]⟩)
    | some d =>
      by_cases he : d = dir
      · exact .inl ⟨hp, by rw [he], State.requireActive_ok s hp (by rw [hd, he]) k⟩
      · exact .inr (.inl ⟨.inr ⟨d, rfl, he⟩, State.requireActive_otherDir s hp hd he k⟩)
  · exact .inr (.inl ⟨.inl hp, State.requireActive_inactive s dir hp k⟩)

/-- All that ENC_UPDATE's guard can do. -/
theorem State.requireStream_cases (s : State) (c : Context) (k : Result) :
    (c.phase = .active ∧ c.dir = some .enc ∧ c.mode = some .gcm ∧ s.requireStream c k = k) ∨
    ((c.phase ≠ .active ∨ c.dir = some .dec ∨ c.mode = some .gmac) ∧ s.requireStream c k = s.raise .sequenceError) ∨
    (c.phase = .active ∧ (c.dir = none ∨ c.mode = none) ∧ ∃ r, s.requireStream c k = .fault (.noValue r)) := by
  unfold State.requireStream
  rcases State.requireActive_cases s c .enc
      (need .mode c.mode fun m => if m = .gcm then k else s.raise .sequenceError) with
    ⟨hp, hd, he⟩ | ⟨h, he⟩ | ⟨hp, hd, he⟩
  · rw [he]
    cases hm : c.mode with
    | none => exact .inr (.inr ⟨hp, .inr rfl, .mode, rfl⟩)
    | some m =>
      cases m with
      | gcm => exact .inl ⟨hp, hd, rfl, by simp⟩
      | gmac => exact .inr (.inl ⟨.inr (.inr rfl), by simp⟩)
  · rw [he]
    refine .inr (.inl ⟨?_, rfl⟩)
    rcases h with h | ⟨d, hd, hne⟩
    · exact .inl h
    · cases d with
      | enc => exact absurd rfl hne
      | dec => exact .inr (.inl hd)
  · exact .inr (.inr ⟨hp, .inl hd, .dir, he⟩)

/-! ### Taking an event (R61, R220) -/

@[simp] theorem takeEvent_idle {s : State} (h : s.inbox = []) : takeEvent s = .idle := by
  simp [takeEvent, h]

theorem takeEvent_command {s : State} {r : Request} {rest : List HostEvent} (h : s.inbox = .command r :: rest) :
    takeEvent s = .run (s.accept r rest) := by
  simp [takeEvent, h]

theorem takeEvent_resetInstance {s : State} {n : Nat} {rest : List HostEvent} (h : s.inbox = .resetInstance n :: rest) :
    takeEvent s = .done (State.resetInstance { s with inbox := rest } n) := by
  simp [takeEvent, h]

theorem takeEvent_resetPlatform {s : State} {rest : List HostEvent} (h : s.inbox = .resetPlatform :: rest) :
    takeEvent s = .done (State.resetPlatform { s with inbox := rest }) := by
  simp [takeEvent, h]

/-! ### Operands (R73, R74, R141) -/

theorem tagBitsLegal_iff (tagBits : Nat) : tagBitsLegal tagBits = true ↔ tagBits ∈ [32, 64, 96, 104, 112, 120, 128] := by
  simp [tagBitsLegal, Config.tagBitsSet]

@[simp] theorem overLimit_iff (bits : Nat) : overLimit bits = true ↔ Config.lenLimitBits < bits := by
  simp [overLimit]

theorem tagLenOf_toNat {tagBits : Nat} (h : tagBits ∈ [32, 64, 96, 104, 112, 120, 128]) :
    (tagLenOf tagBits).toNat = tagBits / 8 := by
  simp only [List.mem_cons, List.not_mem_nil, or_false] at h
  rcases h with rfl | rfl | rfl | rfl | rfl | rfl | rfl <;> rfl

/-! ### Outcomes the host cannot tell apart (R57, R104): the same choices on both sides, taken one at a time -/

theorem Agree.refl (o : Result) : Agree o o := by
  cases o with
  | next t => exact ⟨rfl, rfl⟩
  | fault f => exact rfl
  | refused q => exact rfl

theorem Agree.ite {p : Prop} [Decidable p] {a b a' b' : Result} (ht : p → Agree a a') (hf : ¬ p → Agree b b') :
    Agree (if p then a else b) (if p then a' else b') := by
  split
  · exact ht ‹_›
  · exact hf ‹_›

theorem Agree.need {α : Type} (r : Reg) (v : Option α) {k k' : α → Result} (h : ∀ a, Agree (k a) (k' a)) :
    Agree (need r v k) (need r v k') := by
  cases v with
  | none => exact Agree.refl _
  | some a => exact h a

theorem Agree.withCtx {s s' : State} {k k' : Context → Result} (hs : s.ctx? = s'.ctx?) (h : ∀ c, Agree (k c) (k' c)) :
    Agree (s.withCtx k) (s'.withCtx k') := by
  unfold State.withCtx
  rw [← hs]
  cases s.ctx? with
  | none => exact Agree.refl _
  | some c => exact h c

/-- Two states that respond alike: the same contexts, the same responses so far, the same addressed instance. -/
theorem Agree.respond {s s' : State} (hi : s.insts = s'.insts) (ho : s.outbox = s'.outbox)
    (hr : s.req.inst = s'.req.inst) (r : Response) : Agree (.next (s.respond r)) (.next (s'.respond r)) := by
  exact ⟨by simpa using hi, by simp [ho, hr]⟩

theorem Agree.finish {s s' : State} (hi : s.insts = s'.insts) (ho : s.outbox = s'.outbox)
    (hr : s.req.inst = s'.req.inst) (c : Context) (out : Bytes) : Agree (s.finish c out) (s'.finish c out) := by
  exact ⟨by simp [hi, hr], by simp [ho, hr]⟩

end Sys2Proof.Machine
end

