-- ==== Sys2Proof/Laws/Bytes.lean ====
section
/-! SUPPORT. Lengths and pieces of byte strings, and the CTR steps over them. -/

namespace Sys2Proof.Machine

@[simp] theorem blockBytes_length (b : Block) : (blockBytes b).length = 16 := by simp [blockBytes]

/-- The big-endian value of up to 16 bytes, byte by byte (R6). -/
theorem blockOf_toNat {s : Bytes} (hs : s.length ≤ 16) :
    (blockOf s).toNat = s.foldl (fun acc x => acc * 256 + x.toNat) 0 ∧ (blockOf s).toNat < 256 ^ s.length := by
  induction s using List.reverseRecOn with
  | nil => simp [blockOf]
  | append_singleton s x ih =>
    have hl : s.length ≤ 15 := by simp at hs; omega
    obtain ⟨hv, hlt⟩ := ih (by omega)
    have hx : x.toNat < 256 := x.isLt
    have hpow : 256 ^ s.length ≤ 256 ^ 15 := Nat.pow_le_pow_right (by norm_num) hl
    have hstep : (blockOf (s ++ [x])).toNat = (blockOf s).toNat * 256 + x.toNat := by
      have h1 : blockOf (s ++ [x]) = blockOf s <<< 8 ||| x.setWidth 128 := by simp [blockOf]
      have h2 : (x.setWidth 128).toNat = x.toNat := by simp; omega
      have h3 : (blockOf s).toNat * 2 ^ 8 < 2 ^ 128 := by omega
      rw [h1, BitVec.toNat_or, BitVec.toNat_shiftLeft, h2, Nat.shiftLeft_eq, Nat.mod_eq_of_lt h3, ← Nat.shiftLeft_eq,
        ← Nat.shiftLeft_add_eq_or_of_lt (by simpa using hx), Nat.shiftLeft_eq]
    refine ⟨by rw [hstep, List.foldl_append, ← hv]; rfl, ?_⟩
    rw [hstep, List.length_append, List.length_singleton, pow_succ]
    omega

theorem blockByte_toNat (b : Block) (i : Nat) : (blockByte b i).toNat = b.toNat / 2 ^ (8 * (15 - i)) % 256 := by
  simp [blockByte, Nat.shiftRight_eq_div_pow]

@[simp] theorem be64_length (n : Count) : (be64 n).length = 8 := by simp [be64]

@[simp] theorem be32_length (n : BitVec 32) : (be32 n).length = 4 := by simp [be32]

@[simp] theorem xorBytes_length (a b : Bytes) : (xorBytes a b).length = min a.length b.length := by simp [xorBytes]

@[simp] theorem trunc_length (s : Bytes) (n : Nat) : (trunc s n).length = min n s.length := by simp [trunc]

@[simp] theorem chunks_length (n : Nat) (s : Bytes) : (chunks n s).length = n := by
  induction n generalizing s with
  | zero => rfl
  | succ n ih => simp [chunks, ih]

/-- The chunks are consecutive: together they are the string's first 16·n bytes. -/
theorem chunks_flatten (n : Nat) (s : Bytes) : (chunks n s).flatten = s.take (16 * n) := by
  induction n generalizing s with
  | zero => simp [chunks]
  | succ n ih => rw [chunks, List.flatten_cons, ih, show 16 * (n + 1) = 16 + 16 * n by ring, List.take_add]

/-- Every chunk of a long enough string is a block. -/
theorem chunks_block {n : Nat} {s : Bytes} (h : 16 * n ≤ s.length) {x : Bytes} (hx : x ∈ chunks n s) : x.length = 16 := by
  induction n generalizing s with
  | zero => simp [chunks] at hx
  | succ n ih =>
    simp only [chunks, List.mem_cons] at hx
    rcases hx with rfl | hx
    · simp; omega
    · exact ih (by simp; omega) hx

/-- The first n + m chunks are the first n, then m of the rest. -/
theorem chunks_add (n m : Nat) (s : Bytes) : chunks (n + m) s = chunks n s ++ chunks m (s.drop (16 * n)) := by
  induction n generalizing s with
  | zero => simp [chunks]
  | succ n ih =>
    rw [show n + 1 + m = (n + m) + 1 by ring, chunks, ih, chunks, List.drop_drop, List.cons_append]
    congr 4
    ring

/-- Chunks look no further than their own bytes. -/
theorem chunks_append_of_le {n : Nat} {s : Bytes} (h : 16 * n ≤ s.length) (u : Bytes) :
    chunks n (s ++ u) = chunks n s := by
  induction n generalizing s with
  | zero => rfl
  | succ n ih =>
    rw [chunks, chunks, List.take_append_of_le_length (by omega), List.drop_append_of_le_length (by omega),
      ih (by simp; omega)]

theorem pad16_length (s : Bytes) : (pad16 s).length = s.length + (16 - s.length % 16) % 16 := by simp [pad16]

/-- Folding a string in pieces gives the same Y as folding it whole when the first piece is whole blocks (R127). -/
theorem accumulateMany_append (h y : Block) (s u : Bytes) (hs : s.length % 16 = 0) :
    accumulateMany h y (s ++ u) = accumulateMany h (accumulateMany h y s) u := by
  obtain ⟨n, hn⟩ : ∃ n, s.length = 16 * n := ⟨s.length / 16, by omega⟩
  have hdiv : (s ++ u).length / 16 = n + u.length / 16 := by simp [hn]; omega
  have hn' : s.length / 16 = n := by omega
  unfold accumulateMany
  rw [hdiv, chunks_add, List.foldl_append, hn', chunks_append_of_le (by omega), List.drop_append_of_le_length (by omega),
    List.drop_of_length_le (l := s) (by omega), List.nil_append]

/-- Folding one block is one accumulate (R120, R121). -/
theorem accumulateMany_block (h y : Block) {x : Bytes} (hx : x.length = 16) :
    accumulateMany h y x = accumulate h y (blockOf x) := by
  simp [accumulateMany, hx, chunks, List.take_of_length_le (Nat.le_of_eq hx)]

@[simp] theorem accumulateMany_nil (h y : Block) : accumulateMany h y [] = y := rfl

/-! ### CTR steps (R161) -/

@[simp] theorem ctrStep_cb (E : Cipher) (key : KeySched) (cb : Block) (x : Bytes) :
    (ctrStep E key cb x).1 = inc32 cb := rfl

theorem ctrStep_length (E : Cipher) (key : KeySched) (cb : Block) {x : Bytes} (hx : x.length ≤ 16) :
    (ctrStep E key cb x).2.length = x.length := by
  simp [ctrStep]; omega

theorem ctrXor_length (E : Cipher) (key : KeySched) (cb : Block) (s : Bytes) : (ctrXor E key cb s).length = s.length := by
  simp [ctrXor]

/-- One CTR step on up to 16 bytes is the one-shot formula. -/
theorem ctrStep_eq_ctrXor (E : Cipher) (key : KeySched) (cb : Block) {x : Bytes} (hx : x.length ≤ 16) :
    (ctrStep E key cb x).2 = ctrXor E key cb x := by
  apply List.ext_getElem
  · rw [ctrStep_length E key cb hx, ctrXor_length]
  · intro j h1 h2
    have hj : j < 16 := by rw [ctrXor_length] at h2; omega
    have hd : j / 16 = 0 := by omega
    have hm : j % 16 = j := by omega
    simp [ctrStep, ctrXor, xorBytes, trunc, hd, hm, hj]

/-- The one-shot formula after whole blocks goes on with the counter stepped once a block. -/
theorem ctrXor_append (E : Cipher) (key : KeySched) (cb : Block) {s : Bytes} {n : Nat} (hs : s.length = 16 * n)
    (u : Bytes) : ctrXor E key cb (s ++ u) = ctrXor E key cb s ++ ctrXor E key (inc32^[n] cb) u := by
  unfold ctrXor
  rw [List.mapIdx_append, hs]
  refine congrArg (List.mapIdx _ s ++ ·) ?_
  apply List.ext_getElem
  · simp
  · intro j h1 h2
    have hd : (j + 16 * n) / 16 = j / 16 + n := by omega
    have hm : (j + 16 * n) % 16 = j % 16 := by omega
    simp only [List.getElem_mapIdx, hd, hm]
    rw [show j / 16 + n + 1 = (j / 16 + 1) + n by ring, Function.iterate_add_apply]

/-- A run of CTR steps over whole blocks, then at most one short piece, is the one-shot formula. -/
theorem ctrSteps_chunks (E : Cipher) (key : KeySched) (cb : Block) {s : Bytes} {n : Nat} (hs : 16 * n ≤ s.length) :
    ctrSteps E key cb (chunks n s) = (inc32^[n] cb, ctrXor E key cb (s.take (16 * n))) := by
  induction n generalizing s cb with
  | zero => simp [chunks, ctrSteps, ctrXor]
  | succ n ih =>
    have h16 : (s.take 16).length = 16 := by simp; omega
    rw [chunks, ctrSteps]
    simp only [ctrStep_cb]
    rw [ih (inc32 cb) (by simp; omega), ctrStep_eq_ctrXor E key cb (by omega)]
    refine Prod.ext rfl ?_
    have hsplit : s.take (16 * (n + 1)) = s.take 16 ++ (s.drop 16).take (16 * n) := by
      rw [show 16 * (n + 1) = 16 + 16 * n by ring, List.take_add]
    rw [hsplit, ctrXor_append (n := 1) E key cb (by omega)]
    rfl

theorem ctrSteps_append (E : Cipher) (key : KeySched) (cb : Block) (xs ys : List Bytes) :
    ctrSteps E key cb (xs ++ ys) =
      ((ctrSteps E key (ctrSteps E key cb xs).1 ys).1,
        (ctrSteps E key cb xs).2 ++ (ctrSteps E key (ctrSteps E key cb xs).1 ys).2) := by
  induction xs generalizing cb with
  | nil => simp [ctrSteps]
  | cons x xs ih => simp [ctrSteps, ih]

/-- What DEC_FINAL decrypts is the one-shot formula over the whole ciphertext (R196). -/
theorem ctrSteps_decPieces (E : Cipher) (key : KeySched) (cb : Block) (ct : Bytes) :
    (ctrSteps E key cb (decPieces ct)).2 = ctrXor E key cb ct := by
  have hle : 16 * (ct.length / 16) ≤ ct.length := by omega
  unfold decPieces
  rw [ctrSteps_append, ctrSteps_chunks E key cb hle]
  split
  · have : ct.take (16 * (ct.length / 16)) = ct := List.take_of_length_le (by omega)
    simp [ctrSteps, this]
  · simp only [ctrSteps, List.append_nil]
    rw [ctrStep_eq_ctrXor E key _ (by simp; omega),
      ← ctrXor_append (n := ct.length / 16) E key cb (by simp; omega), List.take_append_drop]

/-- ENC_UPDATE's loop in closed form: the counter steps once a block, Y folds the ciphertext, DATA_BITS grows by 128 a
block, the ciphertext is the one-shot formula (R162). -/
theorem encBlocks_eq (E : Cipher) (key : KeySched) (h : Block) {s : Bytes} {n : Nat} (hs : 16 * n ≤ s.length)
    (st : EncStream) :
    (chunks n s).foldl (encBlock E key h) st =
      { cb := inc32^[n] st.cb
        y := accumulateMany h st.y (ctrXor E key st.cb (s.take (16 * n)))
        dataBits := st.dataBits + BitVec.ofNat 64 (128 * n)
        out := st.out ++ ctrXor E key st.cb (s.take (16 * n)) } := by
  induction n generalizing s st with
  | zero => simp [chunks, ctrXor]
  | succ n ih =>
    have h16 : (s.take 16).length = 16 := by simp; omega
    rw [chunks, List.foldl_cons, ih (by simp; omega)]
    have hsplit : s.take (16 * (n + 1)) = s.take 16 ++ (s.drop 16).take (16 * n) := by
      rw [show 16 * (n + 1) = 16 + 16 * n by ring, List.take_add]
    have hstep : (ctrStep E key st.cb (s.take 16)).2 = ctrXor E key st.cb (s.take 16) :=
      ctrStep_eq_ctrXor E key st.cb (by omega)
    have happ := ctrXor_append (n := 1) E key st.cb (s := s.take 16) (by omega) ((s.drop 16).take (16 * n))
    have hlen : (ctrXor E key st.cb (s.take 16)).length = 16 := by rw [ctrXor_length]; omega
    rw [hsplit, happ]
    simp only [encBlock, ctrStep_cb, hstep]
    congr 1
    · rw [accumulateMany_append _ _ _ _ (by omega), accumulateMany_block _ _ hlen]
      rfl
    · rw [BitVec.add_assoc, show 128 * (n + 1) = 128 + 128 * n by ring, BitVec.ofNat_add]
      rfl
    · simp

/-! ### Comparing tags (R195) -/

/-- OR-ing a byte string from `a` gives zero exactly when `a` and every byte are zero. -/
theorem foldl_or_eq_zero (s : Bytes) (a : Byte) : s.foldl (· ||| ·) a = 0 ↔ a = 0 ∧ ∀ x ∈ s, x = 0 := by
  induction s generalizing a with
  | nil => simp
  | cons x s ih => rw [List.foldl_cons, ih]; simp [BitVec.or_eq_zero_iff, and_assoc]

/-- Two strings of one length differ by zero bytes only when they are equal. -/
theorem xorBytes_zero_iff {t u : Bytes} (h : t.length = u.length) : (∀ x ∈ xorBytes t u, x = 0) ↔ t = u := by
  induction t generalizing u with
  | nil => cases u <;> simp_all [xorBytes]
  | cons x t ih =>
    cases u with
    | nil => simp at h
    | cons y u =>
      have := ih (u := u) (by simpa using h)
      rw [xorBytes, List.zipWith_cons_cons, List.forall_mem_cons, ← xorBytes, this]
      simp

/-- What the comparison says of two tags of one length. -/
theorem tagsEqual_true {t u : Bytes} (h : t.length = u.length) : tagsEqual t u = true ↔ t = u := by
  rw [tagsEqual, beq_iff_eq, foldl_or_eq_zero, xorBytes_zero_iff h]
  simp

end Sys2Proof.Machine
end

