-- ==== Sys2Proof/Laws/Meanings.lean ====
section
/-! SUPPORT. What each command can do when it answers a next state, said once: the frames, the invariants and the
whole-machine rules cite these instead of unfolding the meanings. -/

namespace Sys2Proof.Machine

/-- GFMUL answers PARAM_INVALID or the product (R106). -/
theorem execGfmul_next {s t : State} (h : execGfmul s = .next t) : ∃ c, s.ctx? = some c ∧
    (((s.opA.length ≠ 16 ∨ s.opB.length ≠ 16) ∧ t = s.respond ⟨.paramInvalid, [], 0⟩) ∨
      (s.opA.length = 16 ∧ s.opB.length = 16 ∧ s.shiftedA = false ∧ s.shiftedB = false ∧
        t = s.resolveCapability.respond ⟨.ok, blockBytes (mul (blockOf s.opA) (blockOf s.opB)), 0⟩)) := by
  obtain ⟨c, hc, h⟩ := State.withCtx_next h
  refine ⟨c, hc, ?_⟩
  split at h
  · exact .inl ⟨‹_›, by simpa [State.raise_eq] using h.symm⟩
  · rename_i hl
    rw [not_or, not_not, not_not] at hl
    split at h
    · cases h
    · rename_i hs
      rw [Bool.not_eq_true, Bool.or_eq_false_iff] at hs
      exact .inr ⟨hl.1, hl.2, hs.1, hs.2, by simpa using h.symm⟩

/-- INIT answers one of its three errors, or builds the context on an idle instance (R140). -/
theorem initWith_next {E : Cipher} {mode : Mode} {dir : Dir} {tagBits : Nat} {s t : State}
    (h : initWith E mode dir tagBits s = .next t) : ∃ c, s.ctx? = some c ∧
    ((c.phase ≠ .idle ∧ t = s.respond ⟨.sequenceError, [], 0⟩) ∨
      (c.phase = .idle ∧ t = s.respond ⟨.paramInvalid, [], 0⟩) ∨
      (c.phase = .idle ∧ s.allocOk = false ∧ t = s.respond ⟨.resourceExhausted, [], 0⟩) ∨
      (c.phase = .idle ∧ tagBitsLegal tagBits = true ∧ s.opA ≠ [] ∧ ¬ (mode = .gmac ∧ dir = .dec) ∧
        8 * s.opA.length ≤ Config.lenLimitBits ∧ 8 * s.opB.length ≤ Config.lenLimitBits ∧ s.allocOk = true ∧
        t = (s.resolveCapability.setCtx (initContext E mode dir tagBits s.opKey s.opA s.opB)).respond ⟨.ok, [], 0⟩)) := by
  obtain ⟨c, hc, h⟩ := State.withCtx_next h
  refine ⟨c, hc, ?_⟩
  by_cases hp : c.phase = .idle
  · rw [State.requireIdle_idle s hp] at h
    split at h
    · exact .inr (.inl ⟨hp, by simpa [State.raise_eq] using h.symm⟩)
    split at h
    · exact .inr (.inl ⟨hp, by simpa [State.raise_eq] using h.symm⟩)
    split at h
    · exact .inr (.inl ⟨hp, by simpa [State.raise_eq] using h.symm⟩)
    split at h
    · cases h
    split at h
    · exact .inr (.inr (.inl ⟨hp, by simpa using ‹¬ s.allocOk = true›, by simpa [State.raise_eq] using h.symm⟩))
    · rename_i htag hiv hmd hlen halloc
      rw [overLimit_iff, overLimit_iff, not_or, Nat.not_lt, Nat.not_lt] at hlen
      exact .inr (.inr (.inr ⟨hp, by simpa using htag, by simpa using hiv, hmd, hlen.1, hlen.2, by simpa using halloc,
        by simpa [State.finish_eq] using h.symm⟩))
  · rw [State.requireIdle_busy s hp] at h
    exact .inl ⟨hp, by simpa [State.raise_eq] using h.symm⟩

/-- ENC_UPDATE answers SEQUENCE_ERROR, LENGTH_RANGE, or encrypts the whole blocks of REM || A (R162, R163). -/
theorem encUpdateWith_next {E : Cipher} {s t : State} (h : encUpdateWith E s = .next t) : ∃ c, s.ctx? = some c ∧
    (((c.phase ≠ .active ∨ c.dir = some .dec ∨ c.mode = some .gmac) ∧ t = s.respond ⟨.sequenceError, [], 0⟩) ∨
      (c.phase = .active ∧ c.dir = some .enc ∧ c.mode = some .gcm ∧ ∃ db, c.dataBits = some db ∧
        db.toNat + 8 * (c.rem ++ s.opA).length ≤ Config.lenLimitBits ∧
        ((s.outcap < 16 * ((c.rem ++ s.opA).length / 16) ∧
            t = s.respond ⟨.lengthRange, [], rlenOf (16 * ((c.rem ++ s.opA).length / 16))⟩) ∨
          ((c.rem ++ s.opA).length / 16 = 0 ∧ t = (s.setCtx { c with rem := c.rem ++ s.opA }).respond ⟨.ok, [], 0⟩) ∨
          ((c.rem ++ s.opA).length / 16 ≠ 0 ∧ s.shiftedA = false ∧ ∃ key cb hk y, c.key = some key ∧ c.cb = some cb ∧
            c.h = some hk ∧ c.y = some y ∧
            t = (s.setCtx { c with
                cb := some (inc32^[(c.rem ++ s.opA).length / 16] cb)
                y := some (accumulateMany hk y
                  (ctrXor E key cb ((c.rem ++ s.opA).take (16 * ((c.rem ++ s.opA).length / 16)))))
                dataBits := some (db + BitVec.ofNat 64 (128 * ((c.rem ++ s.opA).length / 16)))
                rem := (c.rem ++ s.opA).drop (16 * ((c.rem ++ s.opA).length / 16)) }).respond
              ⟨.ok, ctrXor E key cb ((c.rem ++ s.opA).take (16 * ((c.rem ++ s.opA).length / 16))), 0⟩)))) := by
  obtain ⟨c, hc, h⟩ := State.withCtx_next h
  refine ⟨c, hc, ?_⟩
  rcases State.requireStream_cases s c _ with ⟨hp, hd, hm, he⟩ | ⟨hcol, he⟩ | ⟨-, -, r, he⟩
  · rw [he] at h
    obtain ⟨db, hdb, h⟩ := need_next h
    dsimp only at h
    split at h
    · cases h
    rename_i hlen
    rw [overLimit_iff, Nat.not_lt] at hlen
    refine .inr ⟨hp, hd, hm, db, hdb, hlen, ?_⟩
    split at h
    · exact .inl ⟨‹_›, by simpa [State.raise_eq] using h.symm⟩
    split at h
    · exact .inr (.inl ⟨‹_›, by simpa [State.finish_eq] using h.symm⟩)
    split at h
    · cases h
    obtain ⟨key, hkey, h⟩ := need_next h
    obtain ⟨cb, hcb, h⟩ := need_next h
    obtain ⟨hk, hhk, h⟩ := need_next h
    obtain ⟨y, hy, h⟩ := need_next h
    refine .inr (.inr ⟨‹_›, by simpa using ‹¬ s.shiftedA = true›, key, cb, hk, y, hkey, hcb, hhk, hy, ?_⟩)
    have hloop := encBlocks_eq E key hk (s := c.rem ++ s.opA) (n := (c.rem ++ s.opA).length / 16) (by omega)
      ⟨cb, y, db, []⟩
    rw [hloop] at h
    simpa [State.finish_eq] using h.symm
  · rw [he] at h
    exact .inl ⟨hcol, by simpa [State.raise_eq] using h.symm⟩
  · rw [he] at h
    cases h

/-- ENC_FINAL answers SEQUENCE_ERROR, INTERNAL_CONSISTENCY, LENGTH_RANGE, or the rest and the tag with the context released
(R165 to R171). -/
theorem encFinalWith_next {E : Cipher} {s t : State} (h : encFinalWith E s = .next t) : ∃ c, s.ctx? = some c ∧
    (((c.phase ≠ .active ∨ ∃ d, c.dir = some d ∧ d ≠ .enc) ∧ t = s.respond ⟨.sequenceError, [], 0⟩) ∨
      (c.phase = .active ∧ c.dir = some .enc ∧ ∃ mode, c.mode = some mode ∧
        ((mode = .gmac ∧ c.rem ≠ [] ∧
            t = (s.setCtx { c with phase := .fault }).respond ⟨.internalConsistency, [], 0⟩) ∨
          (¬ (mode = .gmac ∧ c.rem ≠ []) ∧ ∃ tagLen, c.tagLen = some tagLen ∧
            ((s.outcap < c.rem.length + tagLen.toNat ∧
                t = s.respond ⟨.lengthRange, [], rlenOf (c.rem.length + tagLen.toNat)⟩) ∨
              (c.rem.length + tagLen.toNat ≤ s.outcap ∧
                ∃ out, t = (s.setCtx Context.reset).respond ⟨.ok, out, 0⟩)))))) := by
  obtain ⟨c, hc, h⟩ := State.withCtx_next h
  refine ⟨c, hc, ?_⟩
  rcases State.requireActive_cases s c .enc _ with ⟨hp, hd, he⟩ | ⟨hcol, he⟩ | ⟨-, -, he⟩
  · rw [he] at h
    obtain ⟨mode, hm, h⟩ := need_next h
    refine .inr ⟨hp, hd, mode, hm, ?_⟩
    split at h
    · rename_i hg
      exact .inl ⟨hg.1, hg.2, by simpa [State.raiseWith_eq] using h.symm⟩
    obtain ⟨tagLen, htl, h⟩ := need_next h
    dsimp only at h
    refine .inr ⟨‹_›, tagLen, htl, ?_⟩
    split at h
    · exact .inl ⟨‹_›, by simpa [State.raise_eq] using h.symm⟩
    rename_i hout
    refine .inr ⟨Nat.not_lt.1 hout, ?_⟩
    obtain ⟨key, -, h⟩ := need_next h
    obtain ⟨hk, -, h⟩ := need_next h
    obtain ⟨y, -, h⟩ := need_next h
    obtain ⟨j0, -, h⟩ := need_next h
    obtain ⟨ab, -, h⟩ := need_next h
    obtain ⟨db, -, h⟩ := need_next h
    split at h
    · exact ⟨_, by simpa [State.finish_eq] using h.symm⟩
    · obtain ⟨cb, -, h⟩ := need_next h
      exact ⟨_, by simpa [State.finish_eq] using h.symm⟩
  · rw [he] at h
    exact .inl ⟨hcol, by simpa [State.raise_eq] using h.symm⟩
  · rw [he] at h
    cases h

/-- DEC_UPDATE answers SEQUENCE_ERROR, RESOURCE_EXHAUSTED, or appends its operand to PT_BUF (R190 to R192). -/
theorem execDecUpdate_next {s t : State} (h : execDecUpdate s = .next t) : ∃ c, s.ctx? = some c ∧
    (((c.phase ≠ .active ∨ ∃ d, c.dir = some d ∧ d ≠ .dec) ∧ t = s.respond ⟨.sequenceError, [], 0⟩) ∨
      (c.phase = .active ∧ c.dir = some .dec ∧
        ((s.opA ≠ [] ∧ t = s.respond ⟨.resourceExhausted, [], 0⟩) ∨
          (s.opA = [] ∧ t = s.respond ⟨.ok, [], 0⟩) ∨
          (8 * (c.ptBuf.length + s.opA.length) ≤ Config.lenLimitBits ∧ c.ptBuf.length + s.opA.length ≤ s.plat.ptBufCap ∧
            t = (s.setCtx { c with ptBuf := c.ptBuf ++ s.opA }).respond ⟨.ok, [], 0⟩)))) := by
  obtain ⟨c, hc, h⟩ := State.withCtx_next h
  refine ⟨c, hc, ?_⟩
  rcases State.requireActive_cases s c .dec _ with ⟨hp, hd, he⟩ | ⟨hcol, he⟩ | ⟨-, -, he⟩
  · rw [he] at h
    refine .inr ⟨hp, hd, ?_⟩
    split at h
    · rw [State.finish_same hc] at h
      exact .inr (.inl ⟨by simpa using ‹s.opA.length = 0›, by simpa using h.symm⟩)
    rename_i hne
    split at h
    · cases h
    rename_i hlen
    rw [overLimit_iff, Nat.not_lt] at hlen
    split at h
    · exact .inl ⟨by simpa using hne, by simpa [State.raise_eq] using h.symm⟩
    · rename_i hroom
      rw [not_or, Nat.not_lt] at hroom
      exact .inr (.inr ⟨hlen, hroom.1, by simpa [State.finish_eq] using h.symm⟩)
  · rw [he] at h
    exact .inl ⟨hcol, by simpa [State.raise_eq] using h.symm⟩
  · rw [he] at h
    cases h

/-- DEC_FINAL answers SEQUENCE_ERROR, DATA_LEN_RANGE, LENGTH_RANGE, or releases the context, with bytes only after the tags
compared equal (R193 to R197). -/
theorem decFinalWith_next {E : Cipher} {s t : State} (h : decFinalWith E s = .next t) : ∃ c, s.ctx? = some c ∧
    (((c.phase ≠ .active ∨ ∃ d, c.dir = some d ∧ d ≠ .dec) ∧ t = s.respond ⟨.sequenceError, [], 0⟩) ∨
      (c.phase = .active ∧ c.dir = some .dec ∧ ∃ tagLen, c.tagLen = some tagLen ∧
        ((c.ptBuf.length < tagLen.toNat ∧ t = s.respond ⟨.dataLenRange, [], 0⟩) ∨
          (tagLen.toNat ≤ c.ptBuf.length ∧ s.outcap < c.ptBuf.length - tagLen.toNat ∧
            t = s.respond ⟨.lengthRange, [], rlenOf (c.ptBuf.length - tagLen.toNat)⟩) ∨
          (tagLen.toNat ≤ c.ptBuf.length ∧ t = (s.setCtx Context.reset).respond ⟨.authFailure, [], 0⟩) ∨
          (tagLen.toNat ≤ c.ptBuf.length ∧ ∃ key hk y j0 ab out, c.key = some key ∧ c.h = some hk ∧ c.y = some y ∧
            c.j0 = some j0 ∧ c.aadBits = some ab ∧
            tagsEqual (gcmTag E key hk j0
                (ghashString hk y (memRead c.ptBuf 0 (c.ptBuf.length - tagLen.toNat))) ab
                (BitVec.ofNat 64 (8 * (c.ptBuf.length - tagLen.toNat))) tagLen.toNat)
              (memRead c.ptBuf (c.ptBuf.length - tagLen.toNat) tagLen.toNat) = true ∧
            t = (s.setCtx Context.reset).respond ⟨.ok, out, 0⟩)))) := by
  obtain ⟨c, hc, h⟩ := State.withCtx_next h
  refine ⟨c, hc, ?_⟩
  rcases State.requireActive_cases s c .dec _ with ⟨hp, hd, he⟩ | ⟨hcol, he⟩ | ⟨-, -, he⟩
  · rw [he] at h
    obtain ⟨tagLen, htl, h⟩ := need_next h
    dsimp only at h
    refine .inr ⟨hp, hd, tagLen, htl, ?_⟩
    split at h
    · exact .inl ⟨‹_›, by simpa [State.raise_eq] using h.symm⟩
    rename_i hlt
    refine .inr ?_
    split at h
    · exact .inl ⟨Nat.not_lt.1 hlt, ‹_›, by simpa [State.raise_eq] using h.symm⟩
    refine .inr ?_
    obtain ⟨key, hkey, h⟩ := need_next h
    obtain ⟨hk, hhk, h⟩ := need_next h
    obtain ⟨y, hy, h⟩ := need_next h
    obtain ⟨j0, hj0, h⟩ := need_next h
    obtain ⟨ab, hab, h⟩ := need_next h
    split at h
    · exact .inl ⟨Nat.not_lt.1 hlt, by simpa [State.raiseWith_eq] using h.symm⟩
    rename_i heq
    rw [not_not] at heq
    refine .inr ⟨Nat.not_lt.1 hlt, key, hk, y, j0, ab, ?_⟩
    split at h
    · exact ⟨_, hkey, hhk, hy, hj0, hab, heq, by simpa [State.finish_eq] using h.symm⟩
    · obtain ⟨cb, -, h⟩ := need_next h
      exact ⟨_, hkey, hhk, hy, hj0, hab, heq, by simpa [State.finish_eq] using h.symm⟩
  · rw [he] at h
    exact .inl ⟨hcol, by simpa [State.raise_eq] using h.symm⟩
  · rw [he] at h
    cases h

/-- DEC_FINAL past its two length checks: what it answers turns on the comparison alone (R193). -/
theorem decFinalWith_run {E : Cipher} {s : State} {v : Live} {rem ct tag : Bytes}
    (hc : s.ctx? = some (v.context rem (ct ++ tag))) (hd : v.dir = .dec) (ht : tag.length = v.tagLen.toNat)
    (ho : ct.length ≤ s.outcap) :
    decFinalWith E s =
      if tagsEqual (gcmTag E v.key v.h v.j0 (ghashString v.h v.y ct) v.aadBits (BitVec.ofNat 64 (8 * ct.length))
          v.tagLen.toNat) tag then s.finish Context.reset (ctrXor E v.key v.cb ct)
      else s.raiseWith Context.reset .authFailure := by
  have hpl : (ct ++ tag).length - v.tagLen.toNat = ct.length := by rw [List.length_append]; omega
  have hct : memRead (ct ++ tag) 0 ct.length = ct := by simp [memRead]
  have htag : memRead (ct ++ tag) ct.length v.tagLen.toNat = tag := by simp [memRead, ← ht]
  unfold decFinalWith
  rw [State.withCtx_some hc, State.requireActive_ok s (Live.context_phase ..) (by rw [Live.context_dir, hd])]
  simp only [need_some, Live.context_tagLen, Live.context_ptBuf, Live.context_key, Live.context_h, Live.context_y,
    Live.context_j0, Live.context_aadBits, Live.context_cb, hpl, hct, htag]
  rw [if_neg (by rw [List.length_append]; omega), if_neg (by omega)]
  generalize tagsEqual _ _ = b
  cases b with
  | false => simp
  | true =>
    by_cases h0 : ct = []
    · subst h0; simp [ctrXor]
    · simp [h0, ctrSteps_decPieces]

/-- ABORT releases the context (R224). -/
theorem execAbort_next {s t : State} (h : execAbort s = .next t) :
    ∃ c, s.ctx? = some c ∧ t = (s.setCtx Context.reset).respond ⟨.ok, [], 0⟩ := by
  obtain ⟨c, hc, h⟩ := State.withCtx_next h
  exact ⟨c, hc, by simpa [State.finish_eq] using h.symm⟩

/-- Whatever the command, a next state differs in CAP_STATE, the addressed context, and one more response. -/
theorem exec_next_shape {i : Instr} {s t : State} (h : exec i s = .next t) :
    ∃ (c d : Context) (r : Response) (cap : CapState), s.ctx? = some c ∧
      t = ({ s with capState := cap }.setCtx d).respond r := by
  cases i with
  | gfmul =>
    obtain ⟨c, hc, ⟨-, rfl⟩ | ⟨-, -, -, -, rfl⟩⟩ := execGfmul_next h
    · exact ⟨c, c, _, s.capState, hc, by rw [State.setCtx_same (by exact hc)]⟩
    · exact ⟨c, c, _, if s.capState = .unprobed then s.plat.capability else s.capState, hc, by
        rw [State.setCtx_same (by exact hc), State.resolveCapability_eq]⟩
  | init m d tb =>
    obtain ⟨c, hc, ⟨-, rfl⟩ | ⟨-, rfl⟩ | ⟨-, -, rfl⟩ | ⟨-, -, -, -, -, -, -, rfl⟩⟩ := initWith_next h
    iterate 3 exact ⟨c, c, _, s.capState, hc, by rw [State.setCtx_same (by exact hc)]⟩
    exact ⟨c, _, _, _, hc, by rw [State.resolveCapability_eq]⟩
  | encUpdate =>
    obtain ⟨c, hc, ⟨-, rfl⟩ | ⟨-, -, -, db, -, -, ⟨-, rfl⟩ | ⟨-, rfl⟩ | ⟨-, -, key, cb, hk, y, -, -, -, -, rfl⟩⟩⟩ :=
      encUpdateWith_next h
    · exact ⟨c, c, _, s.capState, hc, by rw [State.setCtx_same (by exact hc)]⟩
    · exact ⟨c, c, _, s.capState, hc, by rw [State.setCtx_same (by exact hc)]⟩
    · exact ⟨c, _, _, s.capState, hc, rfl⟩
    · exact ⟨c, _, _, s.capState, hc, rfl⟩
  | encFinal =>
    obtain ⟨c, hc, ⟨-, rfl⟩ | ⟨-, -, m, -, ⟨-, -, rfl⟩ | ⟨-, tl, -, ⟨-, rfl⟩ | ⟨-, out, rfl⟩⟩⟩⟩ := encFinalWith_next h
    · exact ⟨c, c, _, s.capState, hc, by rw [State.setCtx_same (by exact hc)]⟩
    · exact ⟨c, _, _, s.capState, hc, rfl⟩
    · exact ⟨c, c, _, s.capState, hc, by rw [State.setCtx_same (by exact hc)]⟩
    · exact ⟨c, _, _, s.capState, hc, rfl⟩
  | decUpdate =>
    obtain ⟨c, hc, ⟨-, rfl⟩ | ⟨-, -, ⟨-, rfl⟩ | ⟨-, rfl⟩ | ⟨-, -, rfl⟩⟩⟩ := execDecUpdate_next h
    iterate 3 exact ⟨c, c, _, s.capState, hc, by rw [State.setCtx_same (by exact hc)]⟩
    exact ⟨c, _, _, s.capState, hc, rfl⟩
  | decFinal =>
    obtain ⟨c, hc, ⟨-, rfl⟩ | ⟨-, -, tl, -, ⟨-, rfl⟩ | ⟨-, -, rfl⟩ | ⟨-, rfl⟩ |
      ⟨-, key, hk, y, j0, ab, out, -, -, -, -, -, -, rfl⟩⟩⟩ := decFinalWith_next h
    · exact ⟨c, c, _, s.capState, hc, by rw [State.setCtx_same (by exact hc)]⟩
    · exact ⟨c, c, _, s.capState, hc, by rw [State.setCtx_same (by exact hc)]⟩
    · exact ⟨c, c, _, s.capState, hc, by rw [State.setCtx_same (by exact hc)]⟩
    · exact ⟨c, _, _, s.capState, hc, rfl⟩
    · exact ⟨c, _, _, s.capState, hc, rfl⟩
  | abort =>
    obtain ⟨c, hc, rfl⟩ := execAbort_next h
    exact ⟨c, _, _, s.capState, hc, rfl⟩

end Sys2Proof.Machine
end

