-- ==== Sys2Proof/Laws/Multiplier.lean ====
section
/-! SUPPORT. The multiplier's step is linear: the facts the laws of the product rest on (R101, R105). -/

namespace Sys2Proof.Machine

theorem mulX_xor (a b : Block) : mulX (a ^^^ b) = mulX a ^^^ mulX b := by
  unfold mulX
  rw [BitVec.getLsbD_xor, BitVec.ushiftRight_xor_distrib]
  cases a.getLsbD 0 <;> cases b.getLsbD 0 <;>
    simp only [Bool.xor_false, Bool.false_xor, Bool.xor_self, if_true,
      Bool.false_eq_true, if_false]
  · ac_rfl
  · ac_rfl
  · have : a >>> 1 ^^^ gfR ^^^ (b >>> 1 ^^^ gfR) = a >>> 1 ^^^ b >>> 1 ^^^ (gfR ^^^ gfR) := by ac_rfl
    rw [this, BitVec.xor_self, BitVec.xor_zero]

@[simp] theorem mulX_zero : mulX 0 = 0 := by decide

/-- V after i iterations is Y times x^i, whatever X is (R101). -/
theorem mulRefLoop_snd (x y : Block) (i : Nat) : (mulRefLoop x y i).2 = mulX^[i] y := by
  induction i with
  | zero => rfl
  | succ i ih => rw [mulRefLoop, Function.iterate_succ_apply', ← ih]

/-- Z after i + 1 iterations. -/
theorem mulRefLoop_fst_succ (x y : Block) (i : Nat) :
    (mulRefLoop x y (i + 1)).1 =
      if gfbit x i then (mulRefLoop x y i).1 ^^^ mulX^[i] y else (mulRefLoop x y i).1 := by
  rw [mulRefLoop, ← mulRefLoop_snd x y i]

theorem mulX_iterate_xor (i : Nat) (a b : Block) : mulX^[i] (a ^^^ b) = mulX^[i] a ^^^ mulX^[i] b := by
  induction i generalizing a b with
  | zero => rfl
  | succ i ih => rw [Function.iterate_succ_apply, mulX_xor, ih]; rfl

@[simp] theorem gfbit_xor (a b : Block) (i : Nat) : gfbit (a ^^^ b) i = (gfbit a i ^^ gfbit b i) := by
  simp [gfbit]

end Sys2Proof.Machine
end

