-- ==== Sys2Proof/Laws/PerInstr.lean ====
section
/-! SUPPORT. A fact about every command as syntax, one lemma per constructor: the encoding's OPC is R72's number for it, and
the reserved fields RSV0 and RSV1 of a well-formed command's word are zero (R71, R72). -/

namespace Sys2Proof.Laws.EncodedFields

def Statement (i : Instr) : Prop :=
  i.wf = true → fieldOpc (encode i) = opcOf i ∧ fieldRsv0 (encode i) = 0 ∧ fieldRsv1 (encode i) = 0

theorem gfmul : Statement .gfmul := fun _ => by decide

theorem init (mode : Mode) (dir : Dir) (tagBits : Nat) : Statement (.init mode dir tagBits) := by
  intro h
  have ht : tagBits < 256 := by simpa [Instr.wf, tagBitsFit] using h
  have key : ∀ m d, ∀ t : Fin 256, fieldOpc (encode (.init m d t)) = 2 ∧ fieldRsv0 (encode (.init m d t)) = 0 ∧
      fieldRsv1 (encode (.init m d t)) = 0 := by
    intro m d
    cases m <;> cases d <;> decide +kernel
  exact key mode dir ⟨tagBits, ht⟩

theorem encUpdate : Statement .encUpdate := fun _ => by decide

theorem encFinal : Statement .encFinal := fun _ => by decide

theorem decUpdate : Statement .decUpdate := fun _ => by decide

theorem decFinal : Statement .decFinal := fun _ => by decide

theorem abort : Statement .abort := fun _ => by decide

end Sys2Proof.Laws.EncodedFields
end

