-- ==== Sys2Proof/Machine/Asm.lean ====
section
/-! DEFINITION. The spec's own assembler syntax (spec/30_encoding.md R82): one line is one command. -/

namespace Sys2Proof.Machine

/-- A line of R82's syntax, its key name resolved. -/
inductive AsmLine where
  | gfmul (x y : Bytes)
  | init (mode : Mode) (dir : Dir) (tag : Nat) (key : KeySched) (iv aad : Bytes)
  | encUpdate (data : Bytes) (cap : Count)
  | encFinal (cap : Count)
  | decUpdate (data : Bytes)
  | decFinal (cap : Count)
  | abort
  /-- `.raw <hex32>`: an arbitrary word, for testing decode. What operands it carries is the model's choice (log 19). -/
  | raw (w : CmdWord)
  deriving DecidableEq, Repr

/-- The command record a line stands for (R70, R73, R82). Operands a line with a mnemonic does not name are ignored by its
command (R73): they are empty, zero or the first key schedule. A `.raw` line names none, and R82 does not say which it
carries. Every command but ABORT uses some, so this is a DESIGN CHOICE (log 19): A and B empty, the first key schedule,
OUTCAP 0. So `.raw 00000001` and `.raw 00008002` run GFMUL and INIT on empty operands. A tag of 256 or more, which
`parseLine` reads from no line, is cut as in `PseudoArgs.initRequest`: DESIGN CHOICE (log 19, log 20). -/
def AsmLine.command : AsmLine → Command
  | .gfmul x y => ⟨encode .gfmul, x, y, KeySched.first, 0⟩
  | .init mode dir tag key iv aad => ⟨encode (.init mode dir tag), iv, aad, key, 0⟩
  | .encUpdate data cap => ⟨encode .encUpdate, data, [], KeySched.first, cap⟩
  | .encFinal cap => ⟨encode .encFinal, [], [], KeySched.first, cap⟩
  | .decUpdate data => ⟨encode .decUpdate, data, [], KeySched.first, 0⟩
  | .decFinal cap => ⟨encode .decFinal, [], [], KeySched.first, cap⟩
  | .abort => ⟨encode .abort, [], [], KeySched.first, 0⟩
  | .raw w => ⟨w, [], [], KeySched.first, 0⟩

/-- The value of a hex digit. -/
def hexDigit? (c : Char) : Option Nat :=
  if '0' ≤ c ∧ c ≤ '9' then some (c.toNat - '0'.toNat)
  else if 'a' ≤ c ∧ c ≤ 'f' then some (c.toNat - 'a'.toNat + 10)
  else if 'A' ≤ c ∧ c ≤ 'F' then some (c.toNat - 'A'.toNat + 10)
  else none

/-- Hex digits, two a byte, first byte first. -/
def hexDigits? : List Char → Option Bytes
  | [] => some []
  | [_] => none
  | a :: b :: rest => do
    let hi ← hexDigit? a
    let lo ← hexDigit? b
    let bytes ← hexDigits? rest
    some (BitVec.ofNat 8 (16 * hi + lo) :: bytes)

/-- A hex string; a pair of double quotes is the empty string. -/
def hexString? (s : List Char) : Option Bytes := if s = ['"', '"'] then some [] else if s = [] then none else hexDigits? s

/-- A decimal number. -/
def decimal? (s : List Char) : Option Nat :=
  if s = [] then none
  else s.foldl (fun acc c => acc.bind fun n => if c.isDigit then some (10 * n + (c.toNat - '0'.toNat)) else none) (some 0)

/-- A decimal number below `bound`. -/
def decimalBelow? (bound : Nat) (s : List Char) : Option Nat := (decimal? s).filter (· < bound)

/-- A word in eight hex digits. -/
def word? (s : List Char) : Option CmdWord :=
  if s.length = 8 then
    s.foldl (fun acc c => acc.bind fun w => (hexDigit? c).map fun d => w <<< 4 ||| BitVec.ofNat 32 d) (some 0)
  else none

/-- The pieces of a line between separators. -/
def splitChars (sep : Char) (s : List Char) : List (List Char) :=
  s.foldr (fun c acc => if c = sep then [] :: acc else match acc with | [] => [[c]] | w :: ws => (c :: w) :: ws) [[]]

/-- The value of a token `name=value`. -/
def fieldOf? (name : String) (token : List Char) : Option (List Char) :=
  if token.take (name.length + 1) = name.toList ++ ['='] then some (token.drop (name.length + 1)) else none

/-- `INIT.<GCM|GMAC>.<ENC|DEC>`. -/
def initName? (token : List Char) : Option (Mode × Dir) :=
  if token = "INIT.GCM.ENC".toList then some (.gcm, .enc)
  else if token = "INIT.GCM.DEC".toList then some (.gcm, .dec)
  else if token = "INIT.GMAC.ENC".toList then some (.gmac, .enc)
  else if token = "INIT.GMAC.DEC".toList then some (.gmac, .dec)
  else none

/-- A decimal output space. -/
def capOf? (token : List Char) : Option Count :=
  (fieldOf? "cap" token).bind fun v => (decimalBelow? (2 ^ 64) v).map (BitVec.ofNat 64)

/-- The tokens of a line, by R82's table of forms. Key names are looked up in `keys`. -/
def parseTokens (keys : List Char → Option KeySched) : List (List Char) → Option AsmLine
  | [m] => if m = "ABORT".toList then some .abort else none
  | [m, f] =>
    if m = ".raw".toList then (word? f).map .raw
    else if m = "ENC_FINAL".toList then (capOf? f).map .encFinal
    else if m = "DEC_FINAL".toList then (capOf? f).map .decFinal
    else if m = "DEC_UPDATE".toList then ((fieldOf? "data" f).bind hexString?).map .decUpdate
    else none
  | [m, f, g] =>
    if m = "GFMUL".toList then do
      let x ← (fieldOf? "x" f).bind hexString?
      let y ← (fieldOf? "y" g).bind hexString?
      some (.gfmul x y)
    else if m = "ENC_UPDATE".toList then do
      let data ← (fieldOf? "data" f).bind hexString?
      let cap ← capOf? g
      some (.encUpdate data cap)
    else none
  | [m, t, k, v, a] => do
    let md ← initName? m
    let tag ← (fieldOf? "tag" t).bind (decimalBelow? 256)
    let key ← (fieldOf? "key" k).bind keys
    let iv ← (fieldOf? "iv" v).bind hexString?
    let aad ← (fieldOf? "aad" a).bind hexString?
    some (.init md.1 md.2 tag key iv aad)
  | _ => none

/-- Read one line of assembler text (R82). -/
def parseLine (keys : List Char → Option KeySched) (line : String) : Option AsmLine :=
  parseTokens keys ((splitChars ' ' line.toList).filter (· ≠ []))

end Sys2Proof.Machine
end

