-- ==== Sys2Proof/Tests/Slice0.lean ====
section
/-! SUPPORT. The model's own tests, and a witness for the hypotheses of every obligation that has some. The expected
results are the vectors of spec/95_test_vectors.md (their ids in the docstrings) or worked out by hand from its toy cipher
XOR/KX. -/

namespace Sys2Proof.Tests

open Sys2Proof Sys2Proof.Machine

/-! ### Small states -/

/-- `E_xor` of 95_test_vectors.md under its key `KX`, whatever the key schedule. H is ONE. -/
def xorCipher : Cipher := fun _ x => x ^^^ 0x80000000000000000000000000000000#128

/-- The key schedule that stands for `KX`. -/
def keyKX : KeySched := KeySched.first

/-- A request to instance 0. -/
def request (word : CmdWord) (a b : Bytes) (cap : Count) : Request := ⟨0, ⟨word, a, b, keyKX, cap⟩, true, .separate, .separate⟩

/-- A platform of one instance with the request being executed, no accelerated multiplier and a PT_BUF of 40 bytes. -/
def world (c : Context) (r : Request) : State where
  insts := [c]
  capState := .unprobed
  plat := ⟨false, 40⟩
  inbox := []
  req := r
  outbox := []

/-- The response an outcome gives, if it gives one. -/
def answer : Result → Option Response
  | .next t => t.outbox.getLast?.map Prod.snd
  | .fault _ => none
  | .refused _ => none

/-- The context an outcome leaves. -/
def left : Result → Option Context
  | .next t => t.ctx?
  | .fault _ => none
  | .refused _ => none

/-- The next state, if the outcome is one. -/
def next? : Result → Option State
  | .next t => some t
  | .fault _ => none
  | .refused _ => none

/-- The registers after step 12 of program P5. -/
def enc : Live where
  mode := .gcm
  dir := .enc
  key := keyKX
  h := gfOne
  y := 0xa1a2a300000000000000000000000000#128
  cb := 0x000102030405060708090a0b00000001#128
  j0 := 0x000102030405060708090a0b00000001#128
  aadBits := 24
  dataBits := 0
  tagLen := 4

def dec : Live := { enc with dir := .dec }

def gmac : Live := { enc with mode := .gmac }

/-! ### Well-formedness and decoding -/

theorem test_wf_refuses_tag_256 : (Instr.init .gcm .enc 256).wf = false := by decide
theorem test_wf_accepts_tag_255 : (Instr.init .gmac .dec 255).wf = true := by decide

/-- R71's pattern, RSV1 TAGBITS RSV0 DIR MODE OPC, written out. -/
theorem test_decode_gfmul : decode 0b0000000000000000_00000000_00_0_0_0001#32 = .ok .gfmul := rfl
theorem test_decode_init : decode 0b0000000000000000_01101000_00_0_1_0010#32 = .ok (.init .gmac .enc 104) := rfl
theorem test_decode_init_dec : decode 0b0000000000000000_10000000_00_1_0_0010#32 = .ok (.init .gcm .dec 128) := rfl
theorem test_decode_encUpdate : decode 0b0000000000000000_00000000_00_0_0_0011#32 = .ok .encUpdate := rfl
theorem test_decode_encFinal : decode 0b0000000000000000_00000000_00_0_0_0100#32 = .ok .encFinal := rfl
theorem test_decode_decUpdate : decode 0b0000000000000000_00000000_00_0_0_0101#32 = .ok .decUpdate := rfl
theorem test_decode_decFinal : decode 0b0000000000000000_00000000_00_0_0_0110#32 = .ok .decFinal := rfl
theorem test_decode_abort : decode 0b0000000000000000_00000000_00_0_0_0111#32 = .ok .abort := rfl

/-- X1 to X8 of 95_test_vectors.md. -/
theorem test_decode_rejects : [0x00000000#32, 0x00000008#32, 0x0000000F#32, 0x00010003#32, 0x00000042#32,
    0x00008003#32, 0x00000013#32, 0x00000027#32].map (fun w => (decode w).toOption) = List.replicate 8 none := by
  decide +kernel

/-- X9: INIT decodes for every TAGBITS. -/
theorem test_decode_init_tag_0 : decode 0x00000002#32 = .ok (.init .gcm .enc 0) := rfl

theorem test_decodeTableWord : decodeTableWord 32 0x00006402 = some (.init .gcm .enc 100) := rfl

/-! ### The multiplier, GHASH and the counter -/

/-- M5, M7, M10, M11 and KAT2's product, on the reference path. -/
theorem test_mulRef :
    mulRef 1 1 = 0xe6080000000000000000000000000003#128 ∧
    mulRef (-1) (-1) = 0xf402aaaaaaaaaaaaaaaaaaaaaaaaaaaa#128 ∧
    mulRef 0x80#128 0x02#128 = 0x384#128 ∧
    mulRef 0x00112233445566778899aabbccddeeff#128 0x0f0e0d0c0b0a09080706050403020100#128 =
      0x0ef18c114c9b6e7bab762996e91ccbfc#128 := by decide +kernel

/-- M7 and M11 on the accelerated path's closed form. -/
theorem test_mulAccel :
    mulAccel (-1) (-1) = 0xf402aaaaaaaaaaaaaaaaaaaaaaaaaaaa#128 ∧
    mulAccel 0x00112233445566778899aabbccddeeff#128 0x0f0e0d0c0b0a09080706050403020100#128 =
      0x0ef18c114c9b6e7bab762996e91ccbfc#128 := by decide +kernel

/-- G11: AAD20 under H of AES/K, two blocks, the second padded. -/
theorem test_ghashString : ghashString 0xb83b533708bf535d0aa6e52980d53b78#128 0
    (blockBytes 0xfeedfacedeadbeeffeedfacedeadbeef#128 ++ [0xab, 0xad, 0xda, 0xd2]) =
    0xcd47221ccef0554ee4bb044c88150352#128 := by decide +kernel

/-- KAT2: the ciphertext block, then lenblock(0, 128). -/
theorem test_accumulateMany : accumulateMany 0x66e94bd4ef8a2c3b884cfa59ca342b2e#128 0
    (blockBytes 0x0388dace60b6a392f328c2b971b2fe78#128 ++ blockBytes (lenblock 0 128)) =
    0xf38cbb1ad69223dcc3457ae5b6b0f885#128 := by decide +kernel

/-- G1, G2, G5. -/
theorem test_padding : pad16 [] = [] ∧ pad16 [0xa1] = blockBytes 0xa1000000000000000000000000000000#128 ∧
    lenblock 160 480 = 0x00000000000000a000000000000001e0#128 := by decide

/-- C1 and C3. -/
theorem test_inc32 : inc32 0xcafebabefacedbaddecaf888ffffffff#128 = 0xcafebabefacedbaddecaf88800000000#128 ∧
    inc32 0x000000000000000000000000fffffffe#128 = 0x000000000000000000000000ffffffff#128 := by decide

/-! ### The commands -/

/-- M4, which is P5 step 1; CAP_STATE becomes REF. -/
theorem test_gfmul :
    next? (exec .gfmul (world Context.reset (request 1 (blockBytes 1) (blockBytes 0x40000000000000000000000000000000#128) 0))) =
      some { world Context.reset (request 1 (blockBytes 1) (blockBytes 0x40000000000000000000000000000000#128) 0) with
        capState := .ref
        outbox := [(0, ⟨.ok, blockBytes 0xe1000000000000000000000000000000#128, 0⟩)] } := by decide +kernel

/-- M13. -/
theorem test_gfmul_short : answer (exec .gfmul (world Context.reset (request 1 (List.replicate 15 0) (blockBytes 0) 0))) =
    some ⟨.paramInvalid, [], 0⟩ := by decide +kernel

/-- P5 step 12: a 12-byte IV and three bytes of AAD. -/
theorem test_init : left (initWith xorCipher .gcm .enc 32 (world Context.reset
    (request 0x2002 [0, 1, 2, 3, 4, 5, 6, 7, 8, 9, 10, 11] [0xa1, 0xa2, 0xa3] 0))) = some (enc.context [] []) := by
  decide +kernel

/-- I7: J0 of a 16-byte IV, and Y zero again after it. -/
theorem test_init_long_iv : ((left (initWith xorCipher .gcm .enc 32 (world Context.reset
    (request 0x2002 (blockBytes 0x000102030405060708090a0bffffff7f#128) [] 0)))).map fun c => (c.j0, c.cb, c.y)) =
    some (some 0x000102030405060708090a0bffffffff#128, some 0x000102030405060708090a0bffffffff#128, some 0) := by
  decide +kernel

/-- P5 step 14. -/
theorem test_encUpdate : next? (encUpdateWith xorCipher (world (enc.context [] []) (request 3
      (blockBytes 0x00112233445566778899aabbccddeeff#128 ++ [1, 2]) [] 16))) =
    some { world ({ enc with
        cb := 0x000102030405060708090a0b00000002#128
        y := 0x21b28330405060708090a0b0ccddeefd#128
        dataBits := 128 }.context [1, 2] [])
      (request 3 (blockBytes 0x00112233445566778899aabbccddeeff#128 ++ [1, 2]) [] 16) with
      outbox := [(0, ⟨.ok, blockBytes 0x80102030405060708090a0b0ccddeefd#128, 0⟩)] } := by decide +kernel

/-- V12: the counter wraps between two blocks, and byte 11 stays. -/
theorem test_encUpdate_wrap : ((left (encUpdateWith xorCipher (world
    ({ enc with cb := 0x000102030405060708090a0bffffffff#128, y := 0 }.context [] [])
    (request 3 (List.replicate 32 0) [] 32)))).map fun c => (c.cb, c.y, c.dataBits)) =
    some (some 0x000102030405060708090a0b00000001#128, some 1, some 256) := by decide +kernel

/-- P5 step 15: the rest, then the leading four bytes of the tag. -/
theorem test_encFinal : answer (encFinalWith xorCipher (world ({ enc with
    cb := 0x000102030405060708090a0b00000002#128
    y := 0x21b28330405060708090a0b0ccddeefd#128
    dataBits := 128 }.context [1, 2] []) (request 4 [] [] 6))) =
    some ⟨.ok, [0x81, 0x03, 0x20, 0xb0, 0x81, 0x33], 0⟩ := by decide +kernel

/-- GM6: a GMAC context forced to hold a remainder. -/
theorem test_encFinal_gmac_remainder :
    left (exec .encFinal (world (gmac.context [7] []) (request 4 [] [] 99))) =
      some { gmac.context [7] [] with phase := .fault } := by decide +kernel

/-- D12's shape: an update that would pass PT_BUF_CAP changes nothing. -/
theorem test_decUpdate_full : next? (exec .decUpdate (world (dec.context [] (List.replicate 38 9)) (request 5 [1, 2, 3] [] 0))) =
    some { world (dec.context [] (List.replicate 38 9)) (request 5 [1, 2, 3] [] 0) with
      outbox := [(0, ⟨.resourceExhausted, [], 0⟩)] } := by decide +kernel

/-- D11's shape: the bytes join PT_BUF. -/
theorem test_decUpdate : left (exec .decUpdate (world (dec.context [] [1, 2]) (request 5 [3] [] 0))) =
    some (dec.context [] [1, 2, 3]) := by decide +kernel

/-- The ciphertext and tag of P5 steps 14 and 15, decrypted: the partial block uses the next counter (R196, C4). -/
theorem test_decFinal : answer (decFinalWith xorCipher (world (dec.context []
    (blockBytes 0x80102030405060708090a0b0ccddeefd#128 ++ [0x81, 0x03, 0x20, 0xb0, 0x81, 0x33])) (request 6 [] [] 18))) =
    some ⟨.ok, blockBytes 0x00112233445566778899aabbccddeeff#128 ++ [1, 2], 0⟩ := by decide +kernel

/-- The same with the last byte of the tag changed: nothing leaves the engine, and the context is gone. -/
theorem test_decFinal_tampered : next? (decFinalWith xorCipher (world (dec.context []
    (blockBytes 0x80102030405060708090a0b0ccddeefd#128 ++ [0x81, 0x03, 0x20, 0xb0, 0x81, 0x32])) (request 6 [] [] 18))) =
    some { world Context.reset (request 6 [] [] 18) with outbox := [(0, ⟨.authFailure, [], 0⟩)] } := by decide +kernel

/-- X14: ABORT is the way out of FAULT. -/
theorem test_abort : left (exec .abort (world { gmac.context [7] [] with phase := .fault } (request 7 [] [] 0))) =
    some Context.reset := by decide +kernel

/-! ### The step, the assembler text, the pseudo-commands -/

/-- X8: ILLEGAL_COMMAND in an active context changes nothing. -/
theorem test_step_illegal : answer (step { world (enc.context [1] []) Request.empty with
    inbox := [.command (request 0x00000027 [] [] 0)] }) = some ⟨.illegalCommand, [], 0⟩ := by decide +kernel

/-- X9: TAGBITS = 0 decodes, and INIT refuses it with PARAM_INVALID. -/
theorem test_step_fetch_word : answer (step ((world Context.reset Request.empty).withFetchWord 32 2)) =
    some ⟨.paramInvalid, [], 0⟩ := by decide +kernel

/-- P5 step 4 and a line of the syntax with its operands. -/
theorem test_parse : (parseLine (fun _ => none) ".raw 00000008").map AsmLine.command = some ⟨8, [], [], KeySched.first, 0⟩ ∧
    parseLine (fun _ => none) "ENC_UPDATE data=61 cap=16" = some (.encUpdate [0x61] 16) := by decide +kernel

/-- P5 step 9 as text: the empty string is a pair of quotes. -/
theorem test_parse_init : (parseLine (fun k => if k = ['K', 'X'] then some keyKX else none)
    "INIT.GCM.ENC tag=32 key=KX iv=\"\" aad=\"\"").map AsmLine.command = some ⟨0x2002, [], [], keyKX, 0⟩ := by decide +kernel

/-- A pseudo-command stops at the first response that is not OK (R83). -/
theorem test_seal_stops : (match gcmSeal ⟨0, 100, keyKX, [1], [], [], 99, true, true, .separate, .separate⟩
      (world Context.reset Request.empty) with
    | .next (t, r) => some (t.outbox.length, r.status)
    | .fault _ => none
    | .refused _ => none) = some (1, .paramInvalid) := by decide +kernel

/-! ### Witnesses: states and operands that meet the hypotheses of the obligations

A theorem `witness_<Name>` meets the hypotheses of `Obligations.<Name>`, one conjunct for each clause of a statement with
several. -/

theorem next_of {o : Result} {p : State → Bool} (h : (next? o).any p = true) : ∃ t, o = .next t ∧ p t = true := by
  cases o with
  | next t => exact ⟨t, rfl, h⟩
  | fault f => cases h
  | refused q => cases h

/-- The refusal, if the outcome is one. -/
def refusal? : Result → Option Refusal
  | .next _ => none
  | .fault _ => none
  | .refused q => some q

theorem refused_of {o : Result} {q : Refusal} (h : refusal? o = some q) : o = .refused q := by
  cases o with
  | next t => cases h
  | fault f => cases h
  | refused q' => cases h; rfl

/-- A live context whose registers are as INIT left them under the real cipher. -/
def sound (dir : Dir) : Live where
  mode := .gcm
  dir := dir
  key := KeySched.first
  h := Config.E KeySched.first 0
  y := 0
  cb := 1
  j0 := 1
  aadBits := 0
  dataBits := 0
  tagLen := 4

/-- One instance with `sound`'s context, its capability resolved, and one request pending. -/
def soundWorld (dir : Dir) (ptBuf : Bytes) (r : Request) : State :=
  { world ((sound dir).context [] ptBuf) r with capState := .ref, inbox := [.command r] }

theorem soundWorld_inv (r : Request) : (soundWorld .dec [1] r).Inv where
  someInstance := by simp [soundWorld, world]
  contexts := by
    intro c hc
    obtain rfl : c = (sound .dec).context [] [1] := by simpa [soundWorld, world] using hc
    exact .inr ⟨sound .dec, [], [1], rfl, {
      subkey := rfl
      nonce := rfl
      counted := fun h => by cases h
      decrypting := fun _ => ⟨rfl, rfl, rfl⟩
      encrypting := fun h => by cases h
      gmac := fun h => by cases h
      remShort := by decide
      tagLegal := by decide
      aadWhole := by decide
      dataFits := by decide
      bufFits := show 1 ≤ 40 by decide
      bufCounted := by decide }⟩
  capability := .inr rfl
  resolved := by simp [soundWorld]

/-- The tag that a decrypt context started by `sound` expects for the ciphertext byte 5. -/
def expected : Bytes :=
  gcmTag Config.E (sound .dec).key (sound .dec).h (sound .dec).j0 (ghashString (sound .dec).h (sound .dec).y [5])
    (sound .dec).aadBits (BitVec.ofNat 64 (8 * ([5] : Bytes).length)) (sound .dec).tagLen.toNat

theorem expected_length : expected.length = 4 := by simp [expected, gcmTag, sound]

/-- Some tag of the right length is not the expected one. -/
theorem wrong_tag : ∃ tag : Bytes, tag.length = 4 ∧ expected ≠ tag := by
  by_cases h : expected = [0, 0, 0, 0]
  · exact ⟨[1, 0, 0, 0], rfl, by rw [h]; decide⟩
  · exact ⟨[0, 0, 0, 0], rfl, h⟩

/-- DEC_FINAL on that context, by the comparison. -/
theorem sound_decFinal (tag : Bytes) (ht : tag.length = 4) :
    exec .decFinal (soundWorld .dec ([5] ++ tag) (request 6 [] [] 1)) =
      if tagsEqual expected tag then
        (soundWorld .dec ([5] ++ tag) (request 6 [] [] 1)).finish Context.reset (ctrXor Config.E KeySched.first 1 [5])
      else (soundWorld .dec ([5] ++ tag) (request 6 [] [] 1)).raiseWith Context.reset .authFailure :=
  decFinalWith_run (E := Config.E) (s := soundWorld .dec ([5] ++ tag) (request 6 [] [] 1)) (v := sound .dec) (rem := [])
    (ct := [5]) (tag := tag) rfl rfl (by rw [ht]; rfl) (show 1 ≤ 1 by decide)

theorem witness_InitWordIsTheFormula : (0 : Nat) < 256 ∧ (255 : Nat) < 256 := by decide

theorem witness_EncodeThenDecodeReturnsTheCommand : (Instr.init .gmac .dec 255).wf = true ∧ Instr.abort.wf = true := by
  decide

theorem witness_DecodedWordEncodesBack : decode 0x0000FF32#32 = .ok (.init .gmac .dec 255) := rfl

theorem witness_IllegalWordChangesNothing :
    (world (enc.context [1] []) (request 0 [] [] 0)).ctx? = some (enc.context [1] []) ∧
    (world (enc.context [1] []) Request.empty).insts[(request 0x27 [] [] 0).inst]? =
      some (enc.context [1] []) ∧
    IllegalWord 0x00000000#32 ∧ IllegalWord 0x0000000F#32 ∧ IllegalWord 0x00010003#32 ∧ IllegalWord 0x00000042#32 ∧
    IllegalWord 0x00000027#32 ∧ IllegalWord 0x00000103#32 :=
  ⟨rfl, rfl, .inl (by decide), .inr (.inl (by decide)), .inr (.inr (.inl (by decide))), .inr (.inr (.inl (by decide))),
    .inr (.inr (.inr (by decide))), .inr (.inr (.inr (by decide)))⟩

theorem witness_StepRunsTheDecodedCommand :
    (soundWorld .dec [1] (request 7 [] [] 0)).inbox = [.command (request 7 [] [] 0)] ∧
    decode (request 7 [] [] 0).cmd.word = .ok .abort ∧ (world Context.reset Request.empty).inbox = [] :=
  ⟨rfl, rfl, rfl⟩

theorem witness_ResetLeavesIdleContexts : Context.reset ∈ State.reset.insts ∧
    (∃ s : State, s.inbox = [.resetInstance 0]) ∧ ∃ s : State, s.inbox = [.resetPlatform] :=
  ⟨List.mem_cons_self, ⟨{ world Context.reset Request.empty with inbox := [.resetInstance 0] }, rfl⟩,
    ⟨{ world Context.reset Request.empty with inbox := [.resetPlatform] }, rfl⟩⟩

theorem witness_StepKeepsTheInvariant : ∃ t, (soundWorld .dec [1] (request 5 [2] [] 0)).Inv ∧
    step (soundWorld .dec [1] (request 5 [2] [] 0)) = .next t ∧ t.ctx? = some ((sound .dec).context [] [1, 2]) :=
  ⟨_, soundWorld_inv _, rfl, rfl⟩

theorem witness_NoCommandReadsNoValue : (soundWorld .dec [1] (request 6 [] [] 0)).Inv := soundWorld_inv _

theorem witness_AdmissibleRequestIsAnswered : (soundWorld .dec [1] (request 5 [2] [] 0)).Inv ∧
    (soundWorld .dec [1] (request 5 [2] [] 0)).inbox = [.command (request 5 [2] [] 0)] ∧
    Request.Admissible (soundWorld .dec [1] (request 5 [2] [] 0)) (request 5 [2] [] 0) ((sound .dec).context [] [1]) :=
  ⟨soundWorld_inv _, rfl, rfl, by decide, by decide, by decide, by decide, by decide, by decide⟩

theorem witness_RefusalsAreTheNamedOnes :
    exec .abort (world Context.reset { request 7 [] [] 0 with inst := 1 }) = .refused .noSuchInstance ∧
    exec .encUpdate (world ({ enc with dataBits := -1 }.context [] []) (request 3 [1] [] 0)) = .refused .lengthLimit ∧
    exec .gfmul (world Context.reset { request 1 (blockBytes 1) (blockBytes 1) 0 with overlapA := .shifted }) =
      .refused .partialOverlap ∧
    exec .gfmul (world Context.reset { request 1 (blockBytes 1) (blockBytes 1) 0 with overlapB := .shifted }) =
      .refused .partialOverlap :=
  ⟨refused_of (by decide +kernel), refused_of (by decide +kernel), refused_of (by decide +kernel),
    refused_of (by decide +kernel)⟩

theorem witness_CommandTouchesOnlyItsInstance : ∃ t : State,
    exec .abort { world (enc.context [1] []) (request 7 [] [] 0) with insts := [enc.context [1] [], dec.context [] [2]] } =
      .next t ∧ (t.insts[1]? == some (dec.context [] [2])) = true :=
  next_of (by decide +kernel)

/-- An OK response, one with LENGTH_RANGE, and a word that is no command. -/
theorem witness_EveryCommandGivesOneResponse :
    (∃ t : State, exec .abort (world (enc.context [1] []) (request 7 [] [] 0)) = .next t ∧
      (t.outbox == [(0, ⟨.ok, [], 0⟩)]) = true) ∧
    (∃ t : State, exec .encFinal (world (enc.context [1] []) (request 4 [] [] 4)) = .next t ∧
      (t.outbox == [(0, ⟨.lengthRange, [], 5⟩)]) = true) ∧
    decode (world (enc.context [1] []) (request 0 [] [] 0)).req.cmd.word = .error .reservedOpcode ∧
    ∃ t : State, runCommand (world (enc.context [1] []) (request 0 [] [] 0)) = .next t ∧ (t.outbox.length == 1) = true :=
  ⟨next_of (by decide +kernel), next_of (by decide +kernel), rfl, next_of (by decide +kernel)⟩

/-- An error that keeps everything, INTERNAL_CONSISTENCY, and AUTH_FAILURE. -/
theorem witness_ErrorsArePrecise :
    (∃ t : State, exec .decUpdate (world (enc.context [1] []) (request 5 [1] [] 0)) = .next t ∧
      (t.outbox == [(0, ⟨.sequenceError, [], 0⟩)]) = true) ∧
    (∃ t : State, exec .encFinal (world (gmac.context [1] []) (request 4 [] [] 99)) = .next t ∧
      (t.outbox == [(0, ⟨.internalConsistency, [], 0⟩)]) = true) ∧
    ∃ (s t : State), exec .decFinal s = .next t ∧ t.outbox = s.outbox ++ [(s.req.inst, ⟨.authFailure, [], 0⟩)] := by
  refine ⟨next_of (by decide +kernel), next_of (by decide +kernel), ?_⟩
  obtain ⟨tag, ht, hne⟩ := wrong_tag
  have hcmp : ¬ tagsEqual expected tag = true := fun h => hne ((tagsEqual_true (by rw [expected_length, ht])).1 h)
  exact ⟨_, _, by rw [sound_decFinal tag ht, if_neg hcmp, State.raiseWith_eq], rfl⟩

/-- A "-" of the table, an entry that completes with OK, and DEC_FINAL's that fails authentication. -/
theorem witness_LegalityIsTheTable :
    ((world Context.reset (request 3 [] [] 0)).ctx? = some Context.reset ∧ Context.reset.InColumn .idle .gcm .enc ∧
      legalIn .encUpdate .idle .gcm .enc = false) ∧
    ((world (enc.context [] []) (request 3 [1] [] 0)).ctx? = some (enc.context [] []) ∧
      (enc.context [] []).InColumn .active .gcm .enc ∧ legalIn .encUpdate .active .gcm .enc = true ∧
      ∃ t : State, exec .encUpdate (world (enc.context [] []) (request 3 [1] [] 0)) = .next t ∧
        (t.outbox == [(0, ⟨.ok, [], 0⟩)]) = true) ∧
    ((dec.context [] []).InColumn .active .gcm .dec ∧ legalIn .decFinal .active .gcm .dec = true ∧
      ∃ (s t : State) (c : Context), s.ctx? = some c ∧ c.InColumn .active .gcm .dec ∧ exec .decFinal s = .next t ∧
        t.outbox = s.outbox ++ [(s.req.inst, ⟨.authFailure, [], 0⟩)]) := by
  obtain ⟨tag, ht, hne⟩ := wrong_tag
  have hcmp : ¬ tagsEqual expected tag = true := fun h => hne ((tagsEqual_true (by rw [expected_length, ht])).1 h)
  exact ⟨⟨rfl, ⟨rfl, fun h => by cases h⟩, rfl⟩,
    ⟨rfl, ⟨rfl, fun _ => ⟨rfl, rfl, by decide⟩⟩, rfl, next_of (by decide +kernel)⟩,
    ⟨⟨rfl, fun _ => ⟨rfl, rfl, by decide⟩⟩, rfl, soundWorld .dec ([5] ++ tag) (request 6 [] [] 1), _,
      (sound .dec).context [] ([5] ++ tag), rfl, ⟨rfl, fun _ => ⟨rfl, rfl, by decide⟩⟩,
      by rw [sound_decFinal tag ht, if_neg hcmp, State.raiseWith_eq], rfl⟩⟩

/-- An encrypt context and a decrypt context that a command changes and leaves ACTIVE. -/
theorem witness_ActiveContextKeepsItsBinding :
    (∃ t : State, exec .encUpdate (world (enc.context [] []) (request 3 [1] [] 0)) = .next t ∧
      (t.ctx? == some (enc.context [1] [])) = true) ∧
    ∃ t : State, exec .decUpdate (world (dec.context [] []) (request 5 [1] [] 0)) = .next t ∧
      (t.ctx? == some (dec.context [] [1])) = true :=
  ⟨next_of (by decide +kernel), next_of (by decide +kernel)⟩

theorem witness_PlaintextOnlyAfterTheTagMatches : ∃ (s t : State) (r : Response),
    s.ctx? = some ((sound .dec).context [] ([5] ++ expected)) ∧ (sound .dec).tagLen.toNat ≤ 16 ∧
    exec .decFinal s = .next t ∧ t.outbox = s.outbox ++ [(s.req.inst, r)] ∧ r.out ≠ [] := by
  refine ⟨soundWorld .dec ([5] ++ expected) (request 6 [] [] 1), _, ⟨.ok, ctrXor Config.E KeySched.first 1 [5], 0⟩, rfl, by decide,
    by rw [sound_decFinal _ expected_length, if_pos ((tagsEqual_true rfl).2 rfl), State.finish_eq], rfl, ?_⟩
  exact fun h => absurd ((congrArg List.length h).symm.trans (ctrXor_length Config.E KeySched.first 1 [5])) (by decide)

/-- A GFMUL that resolves the capability, one that finds it resolved, one that fails, and a command that never writes it. -/
theorem witness_CapabilityIsWrittenOnce :
    (∃ t : State, exec .gfmul (world Context.reset (request 1 (blockBytes 1) (blockBytes 1) 0)) = .next t ∧
      (t.outbox.length == 1) = true) ∧
    (∃ t : State, exec .gfmul { world Context.reset (request 1 (blockBytes 1) (blockBytes 1) 0) with capState := .accel } =
      .next t ∧ (t.outbox.length == 1) = true) ∧
    (∃ t : State, exec .gfmul (world Context.reset (request 1 [] [] 0)) = .next t ∧
      (t.outbox == [(0, ⟨.paramInvalid, [], 0⟩)]) = true) ∧
    ∃ t : State, exec .abort (world Context.reset (request 7 [] [] 0)) = .next t ∧ (t.outbox.length == 1) = true :=
  ⟨next_of (by decide +kernel), next_of (by decide +kernel), next_of (by decide +kernel), next_of (by decide +kernel)⟩

theorem witness_InstancesCommute : (request 3 [1] [] 0).inst ≠ ({ request 7 [] [] 0 with inst := 1 } : Request).inst ∧
    ∃ t : State, Sys2Proof.core.run 2 { world (enc.context [] []) Request.empty with
      insts := [enc.context [] [], dec.context [] [2]]
      inbox := [.command (request 3 [1] [] 0), .command { request 7 [] [] 0 with inst := 1 }] } = .next t ∧
      (t.insts == [enc.context [1] [], Context.reset]) = true :=
  ⟨by decide, next_of (by decide +kernel)⟩

theorem witness_BlocksAreBigEndian : (blockBytes 1).length = 16 := rfl

theorem witness_GfmulEmitsTheProduct :
    (world (enc.context [] []) (request 1 (blockBytes 1) (blockBytes 2) 0)).ctx? = some (enc.context [] []) ∧
    (request 1 (blockBytes 1) (blockBytes 2) 0).cmd.a.length = 16 ∧
    (request 1 (blockBytes 1) (blockBytes 2) 0).cmd.b.length = 16 ∧
    (request 1 (blockBytes 1) (blockBytes 2) 0).overlapA ≠ .shifted ∧
    (request 1 (blockBytes 1) (blockBytes 2) 0).overlapB ≠ .shifted := by decide +kernel

theorem witness_GfmulRejectsOtherSizes :
    (world Context.reset (request 1 [] [] 0)).ctx? = some Context.reset ∧
    (request 1 (List.replicate 15 0) (blockBytes 0) 0).cmd.a.length ≠ 16 ∧
    (request 1 (blockBytes 0) (List.replicate 17 0) 0).cmd.b.length ≠ 16 := by decide +kernel

theorem witness_AccumulateManyIsOnePerBlock : (List.replicate 32 (0 : Byte)).length = 16 * 2 ∧ ([] : Bytes).length = 16 * 0 := by
  decide

/-- An IV of 12 bytes and one of 16, with the shortest and the longest tag. -/
theorem witness_InitBuildsTheContext :
    (world Context.reset (request 0x2002 (List.replicate 12 1) [] 0)).ctx? = some Context.reset ∧
    Context.reset.phase = .idle ∧ 32 ∈ [32, 64, 96, 104, 112, 120, 128] ∧ 128 ∈ [32, 64, 96, 104, 112, 120, 128] ∧
    (request 0x2002 (List.replicate 12 1) [] 0).cmd.a ≠ [] ∧ (request 0x8002 (List.replicate 16 1) [] 0).cmd.a ≠ [] ∧
    ¬ (Mode.gmac = .gmac ∧ Dir.enc = .dec) ∧ 8 * (List.replicate 16 (1 : Byte)).length ≤ Config.lenLimitBits ∧
    (request 0x2002 (List.replicate 12 1) [] 0).allocOk = true := by decide +kernel

/-- An active instance; TAGBITS 0 and 255, an empty IV, and GMAC with DEC on an idle one. -/
theorem witness_InitRejectsBadParameters :
    (world Context.reset (request 2 [1] [] 0)).ctx? = some Context.reset ∧ Context.reset.phase = .idle ∧
    (enc.context [] []).phase ≠ .idle ∧ 0 ∉ [32, 64, 96, 104, 112, 120, 128] ∧ 255 ∉ [32, 64, 96, 104, 112, 120, 128] ∧
    (world Context.reset (request 2 [] [] 0)).opA = [] ∧ (Mode.gmac = .gmac ∧ Dir.dec = .dec) := by decide +kernel

theorem witness_InitWithoutAllocationWritesNothing :
    (world Context.reset { request 0x2002 [1] [] 0 with allocOk := false }).ctx? = some Context.reset ∧
    Context.reset.phase = .idle ∧ 32 ∈ [32, 64, 96, 104, 112, 120, 128] ∧
    (world Context.reset { request 0x2002 [1] [] 0 with allocOk := false }).opA ≠ [] ∧
    ¬ (Mode.gcm = .gmac ∧ Dir.enc = .dec) ∧ 8 * ([1] : Bytes).length ≤ Config.lenLimitBits ∧
    ({ request 0x2002 [1] [] 0 with allocOk := false } : Request).allocOk = false := by decide +kernel

theorem world_operands (c : Context) (w : CmdWord) (a b : Bytes) (cap : Count) :
    (world c (request w a b cap)).opA = a ∧ (world c (request w a b cap)).opB = b := ⟨rfl, rfl⟩

/-- An IV of 2^61 bytes, an AAD of 2^61 bytes, a data stream and a buffer that one byte takes past the limit. -/
theorem witness_LengthLimitIsRefused :
    ((world Context.reset (request 0x2002 (List.replicate (2 ^ 61) 0) [] 0)).opA ≠ [] ∧
      2 ^ 64 - 1 < 8 * (List.replicate (2 ^ 61) (0 : Byte)).length) ∧
    ((world Context.reset (request 0x2002 [1] (List.replicate (2 ^ 61) 0) 0)).ctx? = some Context.reset ∧
      2 ^ 64 - 1 < 8 * (world Context.reset (request 0x2002 [1] (List.replicate (2 ^ 61) 0) 0)).opB.length) ∧
    ((world ({ enc with dataBits := -1 }.context [] []) (request 3 [1] [] 0)).ctx? =
        some ({ enc with dataBits := -1 }.context [] []) ∧ enc.dir = .enc ∧ enc.mode = .gcm ∧
      2 ^ 64 - 1 < ((-1 : Count)).toNat + 8 * (([] : Bytes).length + ([1] : Bytes).length)) ∧
    ((world (dec.context [] (List.replicate (2 ^ 61 - 1) 0)) (request 5 [1] [] 0)).ctx? =
        some (dec.context [] (List.replicate (2 ^ 61 - 1) 0)) ∧ dec.dir = .dec ∧ ([1] : Bytes) ≠ [] ∧
      2 ^ 64 - 1 < 8 * ((List.replicate (2 ^ 61 - 1) (0 : Byte)).length + ([1] : Bytes).length)) := by
  refine ⟨⟨?_, ?_⟩, ⟨?_, ?_⟩, ⟨by decide +kernel, by decide, by decide, by decide⟩, ?_, by decide, by decide, ?_⟩
  · rw [(world_operands ..).1, Ne, List.replicate_eq_nil_iff]
    decide
  · rw [List.length_replicate]; decide
  · simp only [world, State.ctx?, request, List.getElem?_cons_zero]
  · rw [(world_operands ..).2, List.length_replicate]; decide
  · simp only [world, State.ctx?, request, List.getElem?_cons_zero]
  · rw [List.length_replicate]; decide

theorem witness_PartialOverlapIsRefused :
    ((world Context.reset { request 1 (blockBytes 1) (blockBytes 1) 0 with overlapA := .shifted }).ctx? =
        some Context.reset ∧ (blockBytes 1).length = 16) ∧
    ((world Context.reset { request 1 (blockBytes 1) (blockBytes 1) 0 with overlapB := .shifted }).ctx? =
        some Context.reset) ∧
    ((world (enc.context [] []) { request 3 (blockBytes 1) [] 16 with overlapA := .shifted }).ctx? =
        some (enc.context [] []) ∧ enc.dir = .enc ∧ enc.mode = .gcm ∧
      enc.dataBits.toNat + 8 * (([] : Bytes).length + (blockBytes 1).length) ≤ Config.lenLimitBits ∧
      16 ≤ ([] : Bytes).length + (blockBytes 1).length ∧
      16 * ((([] : Bytes).length + (blockBytes 1).length) / 16) ≤ (16 : Count).toNat) := by decide +kernel

/-- No whole block, with shifted buffers and no space, and two whole blocks with exactly enough space. -/
theorem witness_EncUpdateEncryptsWholeBlocks :
    ((world (enc.context [1] []) { request 3 (List.replicate 14 0) [] 0 with overlapA := .shifted }).ctx? =
        some (enc.context [1] []) ∧ enc.dir = .enc ∧ enc.mode = .gcm ∧
      enc.dataBits.toNat + 8 * (([1] : Bytes).length + 14) ≤ Config.lenLimitBits ∧
      16 * ((([1] : Bytes).length + 14) / 16) ≤ (0 : Count).toNat ∧ ([1] : Bytes).length + 14 < 16) ∧
    ((world (enc.context [1] []) (request 3 (List.replicate 31 0) [] 32)).ctx? = some (enc.context [1] []) ∧
      enc.dataBits.toNat + 8 * (([1] : Bytes).length + 31) ≤ Config.lenLimitBits ∧
      16 * ((([1] : Bytes).length + 31) / 16) ≤ (32 : Count).toNat ∧
      (request 3 (List.replicate 31 0) [] 32).overlapA ≠ .shifted) := by decide +kernel

theorem witness_EncUpdateNeedsOutputSpace :
    (world (enc.context [1] []) (request 3 (List.replicate 31 0) [] 31)).ctx? = some (enc.context [1] []) ∧
    enc.dir = .enc ∧ enc.mode = .gcm ∧
    enc.dataBits.toNat + 8 * (([1] : Bytes).length + 31) ≤ Config.lenLimitBits ∧
    (31 : Count).toNat < 16 * ((([1] : Bytes).length + (List.replicate 31 (0 : Byte)).length) / 16) := by decide +kernel

theorem witness_EncUpdateSplitsAnywhere :
    (world (enc.context [9] []) (request 3 [] [] 0)).ctx? = some (enc.context [9] []) ∧ enc.dir = .enc ∧
    enc.mode = .gcm ∧ ([9] : Bytes).length < 16 ∧ (request 3 [] [] 0).overlapA ≠ .shifted ∧
    enc.dataBits.toNat + 8 * (([9] : Bytes).length +
      (([([1], 17), (List.replicate 15 0, 17)] : List (Bytes × Count)).map Prod.fst).flatten.length) ≤
        Config.lenLimitBits ∧
    (∀ p ∈ ([([1], 17), (List.replicate 15 0, 17)] : List (Bytes × Count)), 1 + 16 ≤ p.2.toNat) ∧
    1 + 16 ≤ (17 : Count).toNat := by decide +kernel

theorem witness_EncFinalEmitsRestAndTag :
    (world (enc.context (List.replicate 15 7) []) (request 4 [] [] 19)).ctx? =
      some (enc.context (List.replicate 15 7) []) ∧ enc.dir = .enc ∧ enc.mode = .gcm ∧
    (List.replicate 15 (7 : Byte)).length < 16 ∧
    (List.replicate 15 (7 : Byte)).length + enc.tagLen.toNat ≤ (19 : Count).toNat := by decide +kernel

theorem witness_GmacFinalEmitsTheTag :
    (world (gmac.context [] []) (request 4 [] [] 4)).ctx? = some (gmac.context [] []) ∧ gmac.dir = .enc ∧
    gmac.mode = .gmac ∧ gmac.tagLen.toNat ≤ (4 : Count).toNat := by decide +kernel

/-- A GCM context, and a GMAC context with REM empty. -/
theorem witness_EncFinalNeedsOutputSpace :
    ((world (enc.context [1, 2] []) (request 4 [] [] 5)).ctx? = some (enc.context [1, 2] []) ∧ enc.dir = .enc ∧
      (enc.mode = .gmac → ([1, 2] : Bytes) = []) ∧ (5 : Count).toNat < ([1, 2] : Bytes).length + enc.tagLen.toNat) ∧
    ((world (gmac.context [] []) (request 4 [] [] 3)).ctx? = some (gmac.context [] []) ∧ gmac.dir = .enc ∧
      (3 : Count).toNat < ([] : Bytes).length + gmac.tagLen.toNat) := by decide +kernel

theorem witness_GmacRemainderEndsInFault :
    (world (gmac.context [7] []) (request 4 [] [] 0)).ctx? = some (gmac.context [7] []) ∧ gmac.dir = .enc ∧
    gmac.mode = .gmac ∧ ([7] : Bytes) ≠ [] := by decide +kernel

/-- PT_BUF filled exactly to PT_BUF_CAP. -/
theorem witness_DecUpdateAppends :
    (world (dec.context [] (List.replicate 38 1)) (request 5 [2, 3] [] 0)).ctx? =
      some (dec.context [] (List.replicate 38 1)) ∧ dec.dir = .dec ∧
    8 * ((List.replicate 38 (1 : Byte)).length + ([2, 3] : Bytes).length) ≤ Config.lenLimitBits ∧
    (List.replicate 38 (1 : Byte)).length + ([2, 3] : Bytes).length ≤ 40 ∧
    (request 5 [2, 3] [] 0).allocOk = true := by decide +kernel

theorem witness_DecUpdateOfNothingIsOk :
    (world (dec.context [] [1]) (request 5 [] [] 0)).ctx? = some (dec.context [] [1]) ∧ dec.dir = .dec ∧
    (world (dec.context [] [1]) (request 5 [] [] 0)).opA = [] := by decide +kernel

/-- One byte past the capacity, and a false draw with room left. -/
theorem witness_DecUpdateWithoutRoomChangesNothing :
    ((world (dec.context [] (List.replicate 39 1)) (request 5 [2, 3] [] 0)).ctx? =
        some (dec.context [] (List.replicate 39 1)) ∧ dec.dir = .dec ∧ ([2, 3] : Bytes) ≠ [] ∧
      8 * ((List.replicate 39 (1 : Byte)).length + ([2, 3] : Bytes).length) ≤ Config.lenLimitBits ∧
      40 < (List.replicate 39 (1 : Byte)).length + ([2, 3] : Bytes).length) ∧
    ((world (dec.context [] []) { request 5 [2] [] 0 with allocOk := false }).ctx? = some (dec.context [] []) ∧
      (world (dec.context [] []) { request 5 [2] [] 0 with allocOk := false }).req.allocOk = false) := by decide +kernel

theorem witness_DecUpdateSplitsAnywhere :
    (world (dec.context [] [1]) (request 5 [] [] 0)).ctx? = some (dec.context [] [1]) ∧ dec.dir = .dec ∧
    (request 5 [] [] 0).allocOk = true ∧
    8 * (([1] : Bytes).length + (([([1], 0), ([], 0), ([2, 3], 0)] : List (Bytes × Count)).map Prod.fst).flatten.length) ≤
      Config.lenLimitBits ∧
    ([1] : Bytes).length + (([([1], 0), ([], 0), ([2, 3], 0)] : List (Bytes × Count)).map Prod.fst).flatten.length ≤ 40 := by
  decide +kernel

theorem witness_DecFinalReleasesPlaintextOnMatch : ∃ tag : Bytes,
    (soundWorld .dec ([5] ++ tag) (request 6 [] [] 1)).ctx? = some ((sound .dec).context [] ([5] ++ tag)) ∧
    (sound .dec).dir = .dec ∧ tag.length = (sound .dec).tagLen.toNat ∧ ([5] : Bytes).length ≤ (1 : Count).toNat ∧
    tag = (blockBytes (Config.E (sound .dec).key (sound .dec).j0 ^^^ accumulateMany (sound .dec).h (sound .dec).y
      (pad16 [5] ++ blockBytes (lenblock (sound .dec).aadBits (BitVec.ofNat 64 (8 * ([5] : Bytes).length)))))).take
        (sound .dec).tagLen.toNat := by
  refine ⟨_, rfl, rfl, ?_, by decide, rfl⟩
  rw [List.length_take, blockBytes_length]
  decide

theorem witness_DecFinalEmitsNothingOnMismatch : ∃ tag : Bytes,
    (soundWorld .dec ([5] ++ tag) (request 6 [] [] 1)).ctx? = some ((sound .dec).context [] ([5] ++ tag)) ∧
    (sound .dec).dir = .dec ∧ tag.length = (sound .dec).tagLen.toNat ∧ tag.length ≤ 16 ∧
    ([5] : Bytes).length ≤ (1 : Count).toNat ∧
    tag ≠ (blockBytes (Config.E (sound .dec).key (sound .dec).j0 ^^^ accumulateMany (sound .dec).h (sound .dec).y
      (pad16 [5] ++ blockBytes (lenblock (sound .dec).aadBits (BitVec.ofNat 64 (8 * ([5] : Bytes).length)))))).take
        (sound .dec).tagLen.toNat := by
  generalize (blockBytes _).take (sound .dec).tagLen.toNat = right
  by_cases h : right = [0, 0, 0, 0]
  · exact ⟨[1, 0, 0, 0], rfl, rfl, rfl, by decide, by decide, by rw [h]; decide⟩
  · exact ⟨[0, 0, 0, 0], rfl, rfl, rfl, by decide, by decide, fun e => h e.symm⟩

/-- An idle instance, a buffer one byte shorter than the tag, and an output space one byte short. -/
theorem witness_DecFinalChecksBeforeHashing :
    ((world Context.reset (request 6 [] [] 0)).ctx? = some Context.reset ∧ Context.reset.phase ≠ .active) ∧
    ((world (dec.context [] [1, 2, 3]) (request 6 [] [] 0)).ctx? = some (dec.context [] [1, 2, 3]) ∧ dec.dir = .dec ∧
      ([1, 2, 3] : Bytes).length < dec.tagLen.toNat) ∧
    ((world (dec.context [] [1, 2, 3, 4, 5]) (request 6 [] [] 0)).ctx? = some (dec.context [] [1, 2, 3, 4, 5]) ∧
      dec.tagLen.toNat ≤ ([1, 2, 3, 4, 5] : Bytes).length ∧
      (0 : Count).toNat < ([1, 2, 3, 4, 5] : Bytes).length - dec.tagLen.toNat) := by decide +kernel

theorem witness_TagsEqualComparesEveryByte : ([1, 2] : Bytes).length = ([1, 3] : Bytes).length := rfl

theorem witness_AbortReleasesTheContext :
    (world { gmac.context [7] [] with phase := .fault } (request 7 [] [] 0)).ctx? =
      some { gmac.context [7] [] with phase := .fault } := rfl

/-- The arguments of a pseudo-command on an idle platform: two data bytes, a four-byte tag, exactly enough space. -/
def sealArgs (data : Bytes) : PseudoArgs := ⟨0, 32, keyKX, [1], [], data, 6, true, true, .separate, .separate⟩

theorem witness_SealIsGcm :
    (world Context.reset Request.empty).insts[(sealArgs [2, 3]).inst]? = some Context.reset ∧
    Context.reset.phase = .idle ∧ (sealArgs [2, 3]).tagBits ∈ [32, 64, 96, 104, 112, 120, 128] ∧
    (sealArgs [2, 3]).iv ≠ [] ∧ 8 * (sealArgs [2, 3]).iv.length ≤ Config.lenLimitBits ∧
    8 * (sealArgs [2, 3]).aad.length ≤ Config.lenLimitBits ∧ 8 * (sealArgs [2, 3]).data.length ≤ Config.lenLimitBits ∧
    (sealArgs [2, 3]).initDraw = true ∧ (sealArgs [2, 3]).overlapA ≠ .shifted ∧
    (sealArgs [2, 3]).data.length + (sealArgs [2, 3]).tagBits / 8 ≤ (sealArgs [2, 3]).cap.toNat := by decide +kernel

/-- Together with `witness_SealIsGcm`. -/
theorem witness_OpenReturnsWhatSealSealed :
    8 * ((sealArgs [2, 3]).data.length + 16) ≤ Config.lenLimitBits ∧
    (sealArgs [2, 3]).data.length + 16 ≤ (world Context.reset Request.empty).plat.ptBufCap ∧
    (sealArgs [2, 3]).updateDraw = true := by decide +kernel

/-- Together with `witness_SealIsGcm`: a received string of the tag's length, one byte less, and one byte more. -/
theorem witness_GmacVerifyAcceptsExactlyTheTag :
    (sealArgs [1, 2, 3, 4]).data.length = (sealArgs [1, 2, 3, 4]).tagBits / 8 ∧
    (sealArgs [1, 2, 3]).data.length < (sealArgs [1, 2, 3]).tagBits / 8 ∧
    (sealArgs [1, 2, 3, 4, 5]).tagBits / 8 < (sealArgs [1, 2, 3, 4, 5]).data.length ∧
    8 * (sealArgs [1, 2, 3, 4, 5]).data.length ≤ Config.lenLimitBits ∧
    (sealArgs [1, 2, 3, 4, 5]).data.length ≤ (world Context.reset Request.empty).plat.ptBufCap ∧
    (sealArgs [1, 2, 3, 4, 5]).updateDraw = true ∧
    (sealArgs [1, 2, 3, 4, 5]).tagBits / 8 ≤ (sealArgs [1, 2, 3, 4, 5]).cap.toNat := by decide +kernel

end Sys2Proof.Tests
end

section
/-! PROOFS. No command reads a register that holds ⊥ (spec/00_scope.md R11). A meaning is taken apart along its own
pseudocode: every check and every answer is faultless, and a read is faultless when its register holds a value, which on a
context that is ACTIVE under the invariant every register does. -/

namespace Sys2Proof.Machine

/-- The outcome is no fault of the model (R11). -/
def Faultless (o : Result) : Prop := ∀ f : Fault, o ≠ .fault f

/-- Where the context is ACTIVE, each of its ten registers holds a value (R11, R270). -/
def Context.Valued (c : Context) : Prop := c.phase = .active → ∃ (v : Live) (rem ptBuf : Bytes), c = v.context rem ptBuf

/-! ### The invariant gives every register a value -/

theorem Context.reset_valued : Context.reset.Valued := fun h => by simp at h

theorem Context.Inv.valued {p : Platform} {c : Context} (h : c.Inv p) : c.Valued := by
  rcases h with rfl | ⟨v, rem, ptBuf, hv, -⟩
  · exact Context.reset_valued
  · exact fun _ => ⟨v, rem, ptBuf, hv⟩

theorem State.Inv.ctx?_valued {s : State} (h : s.Inv) {c : Context} (hc : s.ctx? = some c) : c.Valued :=
  (h.contexts c (List.mem_of_getElem? hc)).valued

/-! ### Answers and checks -/

theorem Faultless.next {t : State} : Faultless (.next t) := fun _ h => by cases h

theorem Faultless.refused {q : Refusal} : Faultless (.refused q) := fun _ h => by cases h

theorem Faultless.raise {s : State} {status : Status} {rlen : Count} : Faultless (s.raise status rlen) := .next

theorem Faultless.finish {s : State} {c : Context} {out : Bytes} : Faultless (s.finish c out) := .next

theorem Faultless.raiseWith {s : State} {c : Context} {status : Status} : Faultless (s.raiseWith c status) := .next

theorem Faultless.ite {p : Prop} [Decidable p] {a b : Result} (ha : Faultless a) (hb : Faultless b) :
    Faultless (if p then a else b) := by
  split
  · exact ha
  · exact hb

/-- A read of a register that holds a value goes on with the value. -/
theorem Faultless.need {α : Type} {r : Reg} {v : Option α} {a : α} {k : α → Result} (hv : v = some a)
    (hk : Faultless (k a)) : Faultless (need r v k) := by
  rwa [hv, need_some]

theorem Faultless.withCtx {s : State} {k : Context → Result} (h : ∀ c, s.ctx? = some c → Faultless (k c)) :
    Faultless (s.withCtx k) := by
  intro f hf
  obtain ⟨c, hc, hk⟩ := State.withCtx_fault hf
  exact h c hc f hk

/-! ### The guards (R140, R162, R165, R190, R193) -/

theorem Faultless.requireIdle {s : State} {c : Context} {k : Result} (hk : Faultless k) :
    Faultless (s.requireIdle c k) := .ite hk .raise

/-- The guard reads DIR only where the context is ACTIVE, and past it the context is a live one. -/
theorem Faultless.requireActive {s : State} {c : Context} {dir : Dir} {k : Result} (hc : c.Valued)
    (hk : ∀ v rem ptBuf, c = Live.context v rem ptBuf → Faultless k) : Faultless (s.requireActive c dir k) := by
  rcases State.requireActive_cases s c dir k with ⟨hp, -, he⟩ | ⟨-, he⟩ | ⟨hp, hd, -⟩
  · obtain ⟨v, rem, ptBuf, hv⟩ := hc hp
    rw [he]
    exact hk v rem ptBuf hv
  · rw [he]
    exact .raise
  · obtain ⟨v, rem, ptBuf, rfl⟩ := hc hp
    simp at hd

theorem Faultless.requireStream {s : State} {c : Context} {k : Result} (hc : c.Valued)
    (hk : ∀ v rem ptBuf, c = Live.context v rem ptBuf → Faultless k) : Faultless (s.requireStream c k) :=
  .requireActive hc fun v rem ptBuf hv => .need (a := v.mode) (by simp [hv]) (.ite (hk v rem ptBuf hv) .raise)

/-! ### The commands -/

theorem execGfmul_faultless (s : State) : Faultless (execGfmul s) :=
  .withCtx fun _ _ => .ite .raise <| .ite .refused .next

theorem initWith_faultless (E : Cipher) (mode : Mode) (dir : Dir) (tagBits : Nat) (s : State) :
    Faultless (initWith E mode dir tagBits s) :=
  .withCtx fun _ _ => .requireIdle <|
    .ite .raise <| .ite .raise <| .ite .raise <| .ite .refused <| .ite .raise .finish

theorem execAbort_faultless (s : State) : Faultless (execAbort s) := .withCtx fun _ _ => .finish

section
variable {s : State} (hs : ∀ c, s.ctx? = some c → c.Valued)
include hs

/-- ENC_UPDATE reads DATA_BITS, then for a whole block KEY, CB, H and Y (R162). -/
theorem encUpdateWith_faultless (E : Cipher) : Faultless (encUpdateWith E s) := by
  refine .withCtx fun c hc => .requireStream (hs c hc) ?_
  rintro v rem ptBuf rfl
  exact .need rfl <| .ite .refused <| .ite .raise <| .ite .finish <| .ite .refused <|
    .need rfl <| .need rfl <| .need rfl <| .need rfl <| .finish

/-- ENC_FINAL reads MODE and TAG_LEN, then what the tag needs, and CB for a partial block (R165, R169). -/
theorem encFinalWith_faultless (E : Cipher) : Faultless (encFinalWith E s) := by
  refine .withCtx fun c hc => .requireActive (hs c hc) ?_
  rintro v rem ptBuf rfl
  exact .need rfl <| .ite .raiseWith <| .need rfl <| .ite .raise <|
    .need rfl <| .need rfl <| .need rfl <| .need rfl <| .need rfl <| .need rfl <|
    .ite .finish <| .need rfl <| .finish

/-- DEC_UPDATE reads no register past its guard (R190). -/
theorem execDecUpdate_faultless : Faultless (execDecUpdate s) :=
  .withCtx fun c hc => .requireActive (hs c hc) fun _ _ _ _ =>
    .ite .finish <| .ite .refused <| .ite .raise .finish

/-- DEC_FINAL reads TAG_LEN, then what the tag needs, and CB for plaintext (R193). -/
theorem decFinalWith_faultless (E : Cipher) : Faultless (decFinalWith E s) := by
  refine .withCtx fun c hc => .requireActive (hs c hc) ?_
  rintro v rem ptBuf rfl
  exact .need rfl <| .ite .raise <| .ite .raise <|
    .need rfl <| .need rfl <| .need rfl <| .need rfl <| .need rfl <|
    .ite .raiseWith <| .ite .finish <| .need rfl <| .finish

/-- A command faults on no addressed context whose registers hold values while it is ACTIVE. -/
theorem exec_faultless (i : Instr) : Faultless (exec i s) := by
  cases i with
  | gfmul => exact execGfmul_faultless s
  | init mode dir tagBits => exact initWith_faultless Config.E mode dir tagBits s
  | encUpdate => exact encUpdateWith_faultless hs Config.E
  | encFinal => exact encFinalWith_faultless hs Config.E
  | decUpdate => exact execDecUpdate_faultless hs
  | decFinal => exact decFinalWith_faultless hs Config.E
  | abort => exact execAbort_faultless s

end

/-- Settles O12: a read of ⊥ is `need_none`, and the invariant gives the addressed context the values that
`exec_faultless` asks for. -/
theorem noCommandReadsNoValue : Obligations.NoCommandReadsNoValue :=
  ⟨fun _ r k => need_none r k, fun i _ f hs => exec_faultless (fun _ hc => hs.ctx?_valued hc) i f⟩

end Sys2Proof.Machine
end

section
/-! PROOFS. Plaintext leaves a decrypt context only after the tags compared equal (spec/10_state.md R36). Every other command
answers with an empty OUT there, and DEC_FINAL's tag is the GHASH of the padded ciphertext with the length block as one more
block. -/

namespace Sys2Proof.Machine

/-! ### The tag as one fold over ciphertext and length block (R123, R165, R193) -/

/-- The big-endian value of a block's first `n` bytes is the block without its other 16 - n bytes (R6). -/
theorem blockByte_foldl (b : Block) {n : Nat} (hn : n ≤ 16) :
    ((List.range n).map (blockByte b)).foldl (fun acc x => acc * 256 + x.toNat) 0 = b.toNat / 2 ^ (8 * (16 - n)) := by
  induction n with
  | zero => exact (Nat.div_eq_of_lt b.isLt).symm
  | succ n ih =>
    have hshift : b.toNat / 2 ^ (8 * (16 - n)) = b.toNat / 2 ^ (8 * (15 - n)) / 256 := by
      rw [Nat.div_div_eq_div_mul, show 8 * (16 - n) = 8 * (15 - n) + 8 by omega, pow_add]
      rfl
    rw [List.range_succ, List.map_append, List.foldl_append, ih (by omega), hshift, List.map_singleton, List.foldl_cons,
      List.foldl_nil, blockByte_toNat, show 16 - (n + 1) = 15 - n by omega, Nat.div_add_mod']

@[simp] theorem blockOf_blockBytes (b : Block) : blockOf (blockBytes b) = b := by
  apply BitVec.eq_of_toNat_eq
  obtain ⟨hvalue, -⟩ := blockOf_toNat (blockBytes_length b).le
  rw [hvalue, blockBytes, blockByte_foldl b le_rfl]
  exact Nat.div_one _

theorem pad16_length_mod (s : Bytes) : (pad16 s).length % 16 = 0 := by
  rw [pad16_length]
  omega

theorem gcmTag_ghashString (E : Cipher) (key : KeySched) (h j0 y : Block) (ct : Bytes) (aadBits dataBits : Count)
    (n : Nat) : gcmTag E key h j0 (ghashString h y ct) aadBits dataBits n =
      (blockBytes (E key j0 ^^^
        accumulateMany h y (pad16 ct ++ blockBytes (lenblock aadBits dataBits)))).take n := by
  rw [accumulateMany_append h y _ _ (pad16_length_mod ct), accumulateMany_block h _ (blockBytes_length _),
    blockOf_blockBytes]
  rfl

theorem gcmTag_length (E : Cipher) (key : KeySched) (h j0 y : Block) (aadBits dataBits : Count) {n : Nat} (hn : n ≤ 16) :
    (gcmTag E key h j0 y aadBits dataBits n).length = n := by
  simp [gcmTag, hn]

/-! ### The two pieces of PT_BUF (R193) -/

theorem memRead_zero (buf : Bytes) (n : Nat) : memRead buf 0 n = buf.take n := rfl

theorem memRead_to_end {buf : Bytes} {n : Nat} (hn : n ≤ buf.length) :
    memRead buf (buf.length - n) n = buf.drop (buf.length - n) :=
  List.take_of_length_le (by rw [List.length_drop]; omega)

/-! ### Who emits bytes -/

/-- The response that a state made of `s` gave last is the one seen after `s`'s own. -/
theorem State.respond_outbox_eq {s u : State} {r q : Response} (hu : u.outbox = s.outbox)
    (h : (u.respond q).outbox = s.outbox ++ [(s.req.inst, r)]) : q = r := by
  rw [State.respond_outbox, hu, List.append_cancel_left_eq, List.singleton_inj] at h
  exact congrArg Prod.snd h

/-- A response with an empty OUT is no response with a byte in it. -/
theorem State.respond_emits_nothing {s u : State} {r : Response} {status : Status} {rlen : Count}
    (hu : u.outbox = s.outbox) (h : (u.respond ⟨status, [], rlen⟩).outbox = s.outbox ++ [(s.req.inst, r)]) : r.out = [] :=
  State.respond_outbox_eq hu h ▸ rfl

section
variable {s t : State} {r : Response}

/-- INIT emits nothing on any context (R140). -/
theorem initWith_emits_nothing {E : Cipher} {mode : Mode} {dir : Dir} {tagBits : Nat}
    (h : initWith E mode dir tagBits s = .next t) (ho : t.outbox = s.outbox ++ [(s.req.inst, r)]) : r.out = [] := by
  obtain ⟨c, -, ⟨-, rfl⟩ | ⟨-, rfl⟩ | ⟨-, -, rfl⟩ | ⟨-, -, -, -, -, -, -, rfl⟩⟩ := initWith_next h
  iterate 3 exact State.respond_emits_nothing rfl ho
  · exact State.respond_emits_nothing (by simp) ho

/-- DEC_UPDATE emits nothing on any context (R190 to R192). -/
theorem execDecUpdate_emits_nothing (h : execDecUpdate s = .next t)
    (ho : t.outbox = s.outbox ++ [(s.req.inst, r)]) : r.out = [] := by
  obtain ⟨c, -, ⟨-, rfl⟩ | ⟨-, -, ⟨-, rfl⟩ | ⟨-, rfl⟩ | ⟨-, -, rfl⟩⟩⟩ := execDecUpdate_next h
  all_goals exact State.respond_emits_nothing rfl ho

/-- ABORT emits nothing on any context (R224). -/
theorem execAbort_emits_nothing (h : execAbort s = .next t) (ho : t.outbox = s.outbox ++ [(s.req.inst, r)]) :
    r.out = [] := by
  obtain ⟨c, -, rfl⟩ := execAbort_next h
  exact State.respond_emits_nothing rfl ho

variable {c : Context} (hc : s.ctx? = some c) (hd : c.dir = some .dec)
include hc hd

/-- ENC_UPDATE emits nothing on a decrypt context: it answers SEQUENCE_ERROR (R162, R221). -/
theorem encUpdateWith_dec_emits_nothing {E : Cipher} (h : encUpdateWith E s = .next t)
    (ho : t.outbox = s.outbox ++ [(s.req.inst, r)]) : r.out = [] := by
  obtain ⟨c', hc', ⟨-, rfl⟩ | ⟨-, henc, -⟩⟩ := encUpdateWith_next h
  · exact State.respond_emits_nothing rfl ho
  · obtain rfl := Option.some.inj (hc.symm.trans hc')
    simp [hd] at henc

/-- ENC_FINAL emits nothing on a decrypt context: it answers SEQUENCE_ERROR (R165, R221). -/
theorem encFinalWith_dec_emits_nothing {E : Cipher} (h : encFinalWith E s = .next t)
    (ho : t.outbox = s.outbox ++ [(s.req.inst, r)]) : r.out = [] := by
  obtain ⟨c', hc', ⟨-, rfl⟩ | ⟨-, henc, -⟩⟩ := encFinalWith_next h
  · exact State.respond_emits_nothing rfl ho
  · obtain rfl := Option.some.inj (hc.symm.trans hc')
    simp [hd] at henc

/-- On a decrypt context only GFMUL and DEC_FINAL emit bytes (R36). -/
theorem exec_dec_emitter {i : Instr} (hi : i ≠ .gfmul) (h : exec i s = .next t)
    (ho : t.outbox = s.outbox ++ [(s.req.inst, r)]) (hr : r.out ≠ []) : i = .decFinal := by
  cases i with
  | gfmul => exact absurd rfl hi
  | init mode dir tagBits => exact absurd (initWith_emits_nothing h ho) hr
  | encUpdate => exact absurd (encUpdateWith_dec_emits_nothing hc hd h ho) hr
  | encFinal => exact absurd (encFinalWith_dec_emits_nothing hc hd h ho) hr
  | decUpdate => exact absurd (execDecUpdate_emits_nothing h ho) hr
  | decFinal => rfl
  | abort => exact absurd (execAbort_emits_nothing h ho) hr

end

/-- When DEC_FINAL emits a byte, the tag it computed is the trailing TAG_LEN bytes of PT_BUF (R193, R195). -/
theorem decFinalWith_emits_after_match {E : Cipher} {s t : State} {c : Context} {r : Response} (hc : s.ctx? = some c)
    (hlen : ∀ n, c.tagLen = some n → n.toNat ≤ 16) (h : decFinalWith E s = .next t)
    (ho : t.outbox = s.outbox ++ [(s.req.inst, r)]) (hr : r.out ≠ []) :
    ∃ (tagLen : BitVec 5) (key : KeySched) (hk y j0 : Block) (aadBits : Count),
      c.tagLen = some tagLen ∧ c.key = some key ∧ c.h = some hk ∧ c.y = some y ∧ c.j0 = some j0 ∧
      c.aadBits = some aadBits ∧ tagLen.toNat ≤ c.ptBuf.length ∧
      gcmTag E key hk j0 (ghashString hk y (c.ptBuf.take (c.ptBuf.length - tagLen.toNat))) aadBits
          (BitVec.ofNat 64 (8 * (c.ptBuf.length - tagLen.toNat))) tagLen.toNat
        = c.ptBuf.drop (c.ptBuf.length - tagLen.toNat) := by
  obtain ⟨c', hc', hcases⟩ := decFinalWith_next h
  obtain rfl := Option.some.inj (hc.symm.trans hc')
  obtain ⟨-, rfl⟩ | ⟨-, -, tagLen, htl, ⟨-, rfl⟩ | ⟨-, -, rfl⟩ | ⟨-, rfl⟩ |
    ⟨hle, key, hk, y, j0, aadBits, out, hkey, hh, hy, hj0, hab, heq, -⟩⟩ := hcases
  iterate 4 exact absurd (State.respond_emits_nothing rfl ho) hr
  · refine ⟨tagLen, key, hk, y, j0, aadBits, htl, hkey, hh, hy, hj0, hab, hle, ?_⟩
    rw [memRead_zero, memRead_to_end hle] at heq
    refine (tagsEqual_true ?_).1 heq
    rw [gcmTag_length E key hk j0 _ aadBits _ (hlen tagLen htl), List.length_drop]
    omega

/-- Settles O20: `exec_dec_emitter` leaves DEC_FINAL alone, which emits only after its comparison succeeded, and
`gcmTag_ghashString` writes the tag it compared as R36's. -/
theorem plaintextOnlyAfterTheTagMatches : Obligations.PlaintextOnlyAfterTheTagMatches := by
  intro i s t c r hc _ hd hlen hi h ho hr
  obtain rfl := exec_dec_emitter hc hd hi h ho hr
  obtain ⟨tagLen, key, hk, y, j0, aadBits, htl, hkey, hh, hy, hj0, hab, hle, htag⟩ :=
    decFinalWith_emits_after_match hc hlen h ho hr
  rw [gcmTag_ghashString] at htag
  exact ⟨rfl, tagLen, key, hk, y, j0, aadBits, htl, hkey, hh, hy, hj0, hab, hle, htag⟩

end Sys2Proof.Machine
end

section
/-! PROOFS. The byte layout of the length block (spec/20_memory.md R53). A byte of a concatenation that does not straddle the
seam is a byte of the half it lies in. -/

namespace Sys2Proof.Machine

theorem blockByte_lenblock_high (a c : Count) {i : Nat} (hi : i < 8) :
    blockByte (lenblock a c) i = a.extractLsb' (8 * (7 - i)) 8 := by
  have hoffset : 8 * (15 - i) - 64 = 8 * (7 - i) := by omega
  rw [blockByte, lenblock, BitVec.extractLsb'_append_eq_of_le (by omega), hoffset]

theorem blockByte_lenblock_low (a c : Count) (i : Nat) :
    blockByte (lenblock a c) (8 + i) = c.extractLsb' (8 * (7 - i)) 8 := by
  have hoffset : 15 - (8 + i) = 7 - i := by omega
  rw [blockByte, lenblock, hoffset, BitVec.extractLsb'_append_eq_of_add_le (by omega)]

theorem blockBytes_lenblock (a c : Count) : blockBytes (lenblock a c) = be64 a ++ be64 c := by
  have hhigh : (List.range 8).map (blockByte (lenblock a c)) = be64 a :=
    List.map_congr_left fun _ hi => blockByte_lenblock_high a c (List.mem_range.1 hi)
  have hlow : (List.range 8).map (blockByte (lenblock a c) ∘ (8 + ·)) = be64 c :=
    List.map_congr_left fun i _ => blockByte_lenblock_low a c i
  rw [blockBytes, List.range_add (n := 8) (m := 8), List.map_append, List.map_map, hhigh, hlow]

/-- Settles O26: the sixteen byte positions split at the seam of `lenblock`, eight to each count. -/
theorem lengthBlockIsBigEndian : Obligations.LengthBlockIsBigEndian := blockBytes_lenblock

end Sys2Proof.Machine
end

section
/-! PROOFS. The command word (spec/30_encoding.md sections 3 and 4). A word is the sum of its five fields at their places, so
what `decode` asks of the fields and what the match/mask table asks of the word are the same linear facts; and an illegal
word matches no row of that table. -/

namespace Sys2Proof

/-! ### The fields of a word (R71) -/

theorem fieldOpc_lt (w : CmdWord) : fieldOpc w < 16 := (w.extractLsb' 0 4).isLt

/-- A word is its five fields, each at its place. -/
theorem word_toNat (w : CmdWord) : w.toNat =
    fieldOpc w + 16 * fieldModeDir w + 64 * fieldRsv0 w + 256 * fieldTagBits w + 65536 * fieldRsv1 w := by
  have hw := w.isLt
  simp only [fieldOpc, fieldModeDir, fieldRsv0, fieldTagBits, fieldRsv1, BitVec.extractLsb'_toNat,
    Nat.shiftRight_eq_div_pow]
  omega

/-- A fixed word is its OPC with every other field zero. -/
theorem word_eq_opc_iff (w : CmdWord) {n : Nat} (hn : n < 16) : w = BitVec.ofNat 32 n ↔
    fieldOpc w = n ∧ fieldModeDir w = 0 ∧ fieldRsv0 w = 0 ∧ fieldTagBits w = 0 ∧ fieldRsv1 w = 0 := by
  have hopc := fieldOpc_lt w
  rw [← BitVec.toNat_inj, BitVec.toNat_ofNat, Nat.mod_eq_of_lt (by omega), word_toNat]
  omega

/-- A field all of whose bits are in the mask. -/
theorem extractLsb'_and_kept (w : CmdWord) {mask : CmdWord} {lo n : Nat} (h : mask.extractLsb' lo n = BitVec.allOnes n) :
    (w &&& mask).extractLsb' lo n = w.extractLsb' lo n := by
  rw [BitVec.extractLsb'_and, h, BitVec.and_allOnes]

/-- A field none of whose bits are in the mask. -/
theorem extractLsb'_and_cleared (w : CmdWord) {mask : CmdWord} {lo n : Nat} (h : mask.extractLsb' lo n = 0#n) :
    (w &&& mask).extractLsb' lo n = 0#n := by
  rw [BitVec.extractLsb'_and, h, BitVec.and_zero]

/-- Under INIT's mask MODE, DIR and TAGBITS are free and the other fields are OPC 2 and zeros (R84). -/
theorem word_initMask_iff (w : CmdWord) : w &&& 0xFFFF00CF#32 = 0x00000002#32 ↔
    fieldOpc w = 2 ∧ fieldRsv0 w = 0 ∧ fieldRsv1 w = 0 := by
  have hopc : fieldOpc (w &&& 0xFFFF00CF#32) = fieldOpc w := congrArg BitVec.toNat (extractLsb'_and_kept w (by decide))
  have hmodeDir : fieldModeDir (w &&& 0xFFFF00CF#32) = 0 := congrArg BitVec.toNat (extractLsb'_and_cleared w (by decide))
  have hrsv0 : fieldRsv0 (w &&& 0xFFFF00CF#32) = fieldRsv0 w := congrArg BitVec.toNat (extractLsb'_and_kept w (by decide))
  have htag : fieldTagBits (w &&& 0xFFFF00CF#32) = 0 := congrArg BitVec.toNat (extractLsb'_and_cleared w (by decide))
  have hrsv1 : fieldRsv1 (w &&& 0xFFFF00CF#32) = fieldRsv1 w := congrArg BitVec.toNat (extractLsb'_and_kept w (by decide))
  have hlt := fieldOpc_lt w
  rw [← BitVec.toNat_inj, word_toNat, hopc, hmodeDir, hrsv0, htag, hrsv1, BitVec.toNat_ofNat]
  omega

/-! ### Which words decode (R80, R84) -/

/-- R72 assigns a command to each OPC from 1 to 7. -/
theorem instrOfOpc_ok (w : CmdWord) {n : Nat} (hpos : n ≠ 0) (hlt : n < 8) : ∃ i, instrOfOpc w n = .ok i := by
  interval_cases n
  · exact absurd rfl hpos
  all_goals exact ⟨_, rfl⟩

/-- A word decodes when it passes the four checks of R80. -/
theorem decode_ok_iff (w : CmdWord) : (∃ i, decode w = .ok i) ↔
    (fieldOpc w ≠ 0 ∧ fieldOpc w < 8) ∧ (fieldRsv1 w = 0 ∧ fieldRsv0 w = 0) ∧
      (fieldOpc w ≠ 2 → fieldTagBits w = 0) ∧ (fieldOpc w ≠ 2 → fieldModeDir w = 0) := by
  unfold decode
  split
  · exact iff_of_false (by simp) (by omega)
  split
  · exact iff_of_false (by simp) (by omega)
  split
  · exact iff_of_false (by simp) (by omega)
  split
  · exact iff_of_false (by simp) (by omega)
  · exact iff_of_true (instrOfOpc_ok w (by omega) (by omega)) (by omega)

/-- Settles O5: both sides are facts about the five fields, `decode_ok_iff` on the left, `word_eq_opc_iff` and
`word_initMask_iff` row by row on the right. INIT's row is the only one that leaves MODE, DIR and TAGBITS free. -/
theorem legalWordsAreTheTableRows : Obligations.LegalWordsAreTheTableRows := by
  intro w
  rw [decode_ok_iff, word_initMask_iff, word_eq_opc_iff w (n := 1) (by omega), word_eq_opc_iff w (n := 3) (by omega),
    word_eq_opc_iff w (n := 4) (by omega), word_eq_opc_iff w (n := 5) (by omega), word_eq_opc_iff w (n := 6) (by omega),
    word_eq_opc_iff w (n := 7) (by omega)]
  by_cases hinit : fieldOpc w = 2
  · simp [hinit, and_comm]
  · simp only [hinit, ne_eq, not_false_eq_true, true_implies, false_and, false_or, ← or_and_right]
    omega

/-! ### Illegal words (R77, R78) -/

/-- A word of INIT's row has OPC 2 and zero reserved fields. -/
theorem init_word_not_illegal {w : CmdWord} (h : w &&& 0xFFFF00CF#32 = 0x00000002#32) : ¬ Machine.IllegalWord w := by
  have hopc : w &&& 0xF#32 = 2#32 :=
    calc w &&& 0xF#32 = w &&& 0xFFFF00CF#32 &&& 0xF#32 := by rw [BitVec.and_assoc]; rfl
      _ = 2#32 := by rw [h]; rfl
  have hreserved : w &&& 0xFFFF00C0#32 = 0#32 :=
    calc w &&& 0xFFFF00C0#32 = w &&& 0xFFFF00CF#32 &&& 0xFFFF00C0#32 := by rw [BitVec.and_assoc]; rfl
      _ = 0#32 := by rw [h]; rfl
  unfold Machine.IllegalWord
  rw [hopc, hreserved]
  rintro (hzero | hhigh | hrsv | ⟨hother, -⟩)
  · exact absurd hzero (by decide)
  · exact absurd hhigh (by decide)
  · exact hrsv rfl
  · exact hother rfl

/-- No row of R84's table is an illegal word, so `decode` rejects every illegal word. -/
theorem decode_illegal {w : CmdWord} (h : Machine.IllegalWord w) : ∃ e, decode w = .error e := by
  cases hd : decode w with
  | error e => exact ⟨e, rfl⟩
  | ok i =>
    refine absurd h ?_
    rcases (legalWordsAreTheTableRows w).1 ⟨i, hd⟩ with rfl | hinit | rfl | rfl | rfl | rfl | rfl
    case inr.inl => exact init_word_not_illegal hinit
    all_goals unfold Machine.IllegalWord; decide

/-- Settles O1: each word run through `decode`. -/
theorem tableWordsDecode : Obligations.TableWordsDecode := ⟨rfl, rfl, rfl, rfl, rfl, rfl, rfl, rfl, rfl, rfl⟩

/-! ### The word of INIT (R82) -/

/-- A field placed above every bit of a word adds its value at that place. -/
theorem or_placeField_toNat {w : CmdWord} {v lo : Nat} (hw : w.toNat < 2 ^ lo) (hv : v * 2 ^ lo < 2 ^ 32) :
    (w ||| placeField v lo).toNat = w.toNat + v * 2 ^ lo := by
  have hv32 : v < 2 ^ 32 := (Nat.le_mul_of_pos_right v (Nat.two_pow_pos lo)).trans_lt hv
  have hplace : (placeField v lo).toNat = v <<< lo := by
    rw [placeField, BitVec.toNat_shiftLeft, BitVec.toNat_ofNat, Nat.mod_eq_of_lt hv32, Nat.shiftLeft_eq,
      Nat.mod_eq_of_lt hv]
  rw [BitVec.toNat_or, hplace, Nat.or_comm, ← Nat.shiftLeft_add_eq_or_of_lt hw, Nat.shiftLeft_eq, Nat.add_comm]

theorem modeBit_eq (m : Mode) : modeBit m = if m = .gmac then 1 else 0 := by cases m <;> rfl

theorem dirBit_eq (d : Dir) : dirBit d = if d = .dec then 1 else 0 := by cases d <;> rfl

/-- Settles O2: each field of INIT's word lies above the ones placed before it. -/
theorem initWordIsTheFormula : Obligations.InitWordIsTheFormula := by
  intro m d t ht
  have hopc : (placeField (opcOf (.init m d t)) 0).toNat = 2 := rfl
  have hmode : modeBit m ≤ 1 := by cases m <;> decide
  have hdir : dirBit d ≤ 1 := by cases d <;> decide
  have h4 := or_placeField_toNat (v := modeBit m) (lo := 4) (by rw [hopc]; omega) (by omega)
  have h5 := or_placeField_toNat (v := dirBit d) (lo := 5) (by rw [h4]; omega) (by omega)
  have h8 := or_placeField_toNat (v := t) (lo := 8) (by rw [h5, h4]; omega) (by omega)
  rw [encode, h8, h5, h4, hopc, modeBit_eq, dirBit_eq]
  split <;> split <;> omega

end Sys2Proof
end

section
/-! PROOFS. The responses (spec/30_encoding.md section 2, 45_control.md R223): the status codes, what an illegal word is
answered with, and the shape of every command's one response. -/

namespace Sys2Proof.Machine

/-- Settles O7: the nine lines of `Status.code`. -/
theorem statusCodesAreTheTable : Obligations.StatusCodesAreTheTable := ⟨rfl, rfl, rfl, rfl, rfl, rfl, rfl, rfl, rfl⟩

/-! ### Words that are no command (R77, R78, R223) -/

theorem runCommand_error {s : State} {e : DecodeError} (h : decode s.req.cmd.word = .error e) :
    runCommand s = s.illegalCommand := by
  rw [runCommand, h]

theorem State.illegalCommand_eq {s : State} {c : Context} (h : s.ctx? = some c) :
    s.illegalCommand = .next (s.respond ⟨.illegalCommand, [], 0⟩) := State.withCtx_some h _

theorem State.illegalCommand_next {s t : State} (h : s.illegalCommand = .next t) :
    t = s.respond ⟨.illegalCommand, [], 0⟩ := by
  obtain ⟨c, hc, -⟩ := State.withCtx_next h
  rw [State.illegalCommand_eq hc] at h
  exact (Host.Outcome.next.inj h).symm

theorem step_command {s : State} {r : Request} {rest : List HostEvent} (h : s.inbox = .command r :: rest) :
    step s = runCommand (s.accept r rest) := by
  rw [step, takeEvent_command h]

theorem runCommand_illegalWord {s : State} {c : Context} (hc : s.ctx? = some c) (hw : IllegalWord s.req.cmd.word) :
    runCommand s = .next (s.respond ⟨.illegalCommand, [], 0⟩) := by
  obtain ⟨e, he⟩ := decode_illegal hw
  rw [runCommand_error he, State.illegalCommand_eq hc]

/-- Settles O6: `decode` rejects an illegal word, and the step is `runCommand` on the request it takes. -/
theorem illegalWordChangesNothing : Obligations.IllegalWordChangesNothing :=
  ⟨fun _ _ hc hw => runCommand_illegalWord hc hw,
    fun s r rest c hin hc hw => (step_command hin).trans (runCommand_illegalWord (s := s.accept r rest) (c := c) hc hw)⟩

/-! ### The shape of a response (R75) -/

/-- What R75 asks of a response to a command that needs `n` bytes of output space: OUT empty unless OK, RLEN `n` for
LENGTH_RANGE and 0 otherwise. -/
def Response.Shaped (n : Nat) (r : Response) : Prop :=
  (r.status ≠ .ok → r.out = []) ∧ (r.status = .lengthRange → r.rlen = BitVec.ofNat 64 n) ∧
    (r.status ≠ .lengthRange → r.rlen = 0)

theorem Response.Shaped.ok {n : Nat} {out : Bytes} : Response.Shaped n ⟨.ok, out, 0⟩ :=
  ⟨fun h => absurd rfl h, nofun, fun _ => rfl⟩

theorem Response.Shaped.error {n : Nat} {status : Status} (h : status ≠ .lengthRange) :
    Response.Shaped n ⟨status, [], 0⟩ :=
  ⟨fun _ => rfl, fun hs => absurd hs h, fun _ => rfl⟩

theorem Response.Shaped.lengthRange {n : Nat} : Response.Shaped n ⟨.lengthRange, [], rlenOf n⟩ :=
  ⟨fun _ => rfl, fun _ => rfl, fun h => absurd rfl h⟩

/-- `t` is `s` after exactly one more response, of the shape R75 gives a command that needs `n` bytes. -/
def State.AnswersOnce (n : Nat) (s t : State) : Prop :=
  ∃ r : Response, t.outbox = s.outbox ++ [(s.req.inst, r)] ∧ r.Shaped n

/-- A response by a state with the outbox and the request of `s`, whatever its contexts and CAP_STATE. -/
theorem State.AnswersOnce.respond {n : Nat} {s u : State} {r : Response} (ho : u.outbox = s.outbox)
    (hq : u.req = s.req) (hr : r.Shaped n) : s.AnswersOnce n (u.respond r) :=
  ⟨r, by rw [State.respond_outbox, ho, hq], hr⟩

section
variable {s t : State}

theorem execGfmul_answersOnce {n : Nat} (h : execGfmul s = .next t) : ∃ c, s.ctx? = some c ∧ s.AnswersOnce n t := by
  obtain ⟨c, hc, ⟨-, rfl⟩ | ⟨-, -, -, -, rfl⟩⟩ := execGfmul_next h
  · exact ⟨c, hc, .respond rfl rfl (.error nofun)⟩
  · exact ⟨c, hc, .respond s.resolveCapability_outbox s.resolveCapability_req .ok⟩

theorem initWith_answersOnce {E : Cipher} {mode : Mode} {dir : Dir} {tagBits n : Nat}
    (h : initWith E mode dir tagBits s = .next t) : ∃ c, s.ctx? = some c ∧ s.AnswersOnce n t := by
  obtain ⟨c, hc, ⟨-, rfl⟩ | ⟨-, rfl⟩ | ⟨-, -, rfl⟩ | ⟨-, -, -, -, -, -, -, rfl⟩⟩ := initWith_next h
  iterate 3 exact ⟨c, hc, .respond rfl rfl (.error nofun)⟩
  · exact ⟨c, hc, .respond s.resolveCapability_outbox s.resolveCapability_req .ok⟩

theorem encUpdateWith_answersOnce {E : Cipher} (h : encUpdateWith E s = .next t) :
    ∃ c, s.ctx? = some c ∧ s.AnswersOnce (requiredSpace .encUpdate s c) t := by
  obtain ⟨c, hc, ⟨-, rfl⟩ | ⟨-, -, -, db, -, -, ⟨-, rfl⟩ | ⟨-, rfl⟩ | ⟨-, -, key, cb, hk, y, -, -, -, -, rfl⟩⟩⟩ :=
    encUpdateWith_next h
  · exact ⟨c, hc, .respond rfl rfl (.error nofun)⟩
  · rw [List.length_append]
    exact ⟨c, hc, .respond rfl rfl .lengthRange⟩
  · exact ⟨c, hc, .respond rfl rfl .ok⟩
  · exact ⟨c, hc, .respond rfl rfl .ok⟩

theorem encFinalWith_answersOnce {E : Cipher} (h : encFinalWith E s = .next t) :
    ∃ c, s.ctx? = some c ∧ s.AnswersOnce (requiredSpace .encFinal s c) t := by
  obtain ⟨c, hc, ⟨-, rfl⟩ | ⟨-, -, m, -, ⟨-, -, rfl⟩ | ⟨-, tagLen, htl, ⟨-, rfl⟩ | ⟨-, out, rfl⟩⟩⟩⟩ := encFinalWith_next h
  · exact ⟨c, hc, .respond rfl rfl (.error nofun)⟩
  · exact ⟨c, hc, .respond rfl rfl (.error nofun)⟩
  · refine ⟨c, hc, ?_⟩
    rw [requiredSpace, htl, Option.getD_some]
    exact .respond rfl rfl .lengthRange
  · exact ⟨c, hc, .respond rfl rfl .ok⟩

theorem execDecUpdate_answersOnce {n : Nat} (h : execDecUpdate s = .next t) :
    ∃ c, s.ctx? = some c ∧ s.AnswersOnce n t := by
  obtain ⟨c, hc, ⟨-, rfl⟩ | ⟨-, -, ⟨-, rfl⟩ | ⟨-, rfl⟩ | ⟨-, -, rfl⟩⟩⟩ := execDecUpdate_next h
  · exact ⟨c, hc, .respond rfl rfl (.error nofun)⟩
  · exact ⟨c, hc, .respond rfl rfl (.error nofun)⟩
  · exact ⟨c, hc, .respond rfl rfl .ok⟩
  · exact ⟨c, hc, .respond rfl rfl .ok⟩

theorem decFinalWith_answersOnce {E : Cipher} (h : decFinalWith E s = .next t) :
    ∃ c, s.ctx? = some c ∧ s.AnswersOnce (requiredSpace .decFinal s c) t := by
  obtain ⟨c, hc, ⟨-, rfl⟩ | ⟨-, -, tagLen, htl, ⟨-, rfl⟩ | ⟨-, -, rfl⟩ | ⟨-, rfl⟩ |
    ⟨-, key, hk, y, j0, ab, out, -, -, -, -, -, -, rfl⟩⟩⟩ := decFinalWith_next h
  · exact ⟨c, hc, .respond rfl rfl (.error nofun)⟩
  · exact ⟨c, hc, .respond rfl rfl (.error nofun)⟩
  · refine ⟨c, hc, ?_⟩
    rw [requiredSpace, htl, Option.getD_some]
    exact .respond rfl rfl .lengthRange
  · exact ⟨c, hc, .respond rfl rfl (.error nofun)⟩
  · exact ⟨c, hc, .respond rfl rfl .ok⟩

theorem execAbort_answersOnce {n : Nat} (h : execAbort s = .next t) : ∃ c, s.ctx? = some c ∧ s.AnswersOnce n t := by
  obtain ⟨c, hc, rfl⟩ := execAbort_next h
  exact ⟨c, hc, .respond rfl rfl .ok⟩

/-- Every command that completes gives one response of R75's shape, with R244's size for it. -/
theorem exec_answersOnce {i : Instr} (h : exec i s = .next t) :
    ∃ c, s.ctx? = some c ∧ s.AnswersOnce (requiredSpace i s c) t := by
  cases i with
  | gfmul => exact execGfmul_answersOnce h
  | init mode dir tagBits => exact initWith_answersOnce h
  | encUpdate => exact encUpdateWith_answersOnce h
  | encFinal => exact encFinalWith_answersOnce h
  | decUpdate => exact execDecUpdate_answersOnce h
  | decFinal => exact decFinalWith_answersOnce h
  | abort => exact execAbort_answersOnce h

end

/-- Settles O16: `exec_answersOnce` for a command, `State.illegalCommand` for a word that is none. -/
theorem everyCommandGivesOneResponse : Obligations.EveryCommandGivesOneResponse := by
  refine ⟨fun i s t h => ?_, fun s t e he h => ?_⟩
  · obtain ⟨c, hc, r, hout, hshape⟩ := exec_answersOnce h
    exact ⟨c, r, hc, hout, hshape⟩
  · rw [runCommand_error he] at h
    rw [State.illegalCommand_next h, State.respond_outbox]

end Sys2Proof.Machine
end

section
/-! PROOFS. The product as a commutative ring's (spec/40_multiplier.md R105), for the closed form of GHASH. R101's loop makes
the product by X the operator that adds up the iterates of `mulX` selected by X's coefficients. Two such operators commute, and
the one of X takes ONE to X; commutativity and associativity follow without any fact about the modulus. -/

namespace Sys2Proof.Machine

/-! ### The operator of a block -/

theorem mulRefLoop_fst_xor (a x y : Block) (i : Nat) :
    (mulRefLoop a (x ^^^ y) i).1 = (mulRefLoop a x i).1 ^^^ (mulRefLoop a y i).1 := by
  induction i with
  | zero => exact (BitVec.xor_self (x := 0#128)).symm
  | succ i ih =>
    simp only [mulRefLoop_fst_succ, ih, mulX_iterate_xor]
    split
    · ac_rfl
    · rfl

/-- The product distributes over XOR in its second operand (R105). -/
theorem mul_xor (a x y : Block) : mul a (x ^^^ y) = mul a x ^^^ mul a y := mulRefLoop_fst_xor a x y 128

/-- Any linear map that commutes with `mulX` passes through the loop. -/
theorem map_mulRefLoop_fst {f : Block → Block} (hzero : f 0 = 0) (hxor : ∀ x y, f (x ^^^ y) = f x ^^^ f y)
    (hmulX : ∀ x, f (mulX x) = mulX (f x)) (a x : Block) (i : Nat) :
    f (mulRefLoop a x i).1 = (mulRefLoop a (f x) i).1 := by
  induction i with
  | zero => exact hzero
  | succ i ih =>
    have hiter : f (mulX^[i] x) = mulX^[i] (f x) := Function.Commute.iterate_right (g := mulX) hmulX i x
    rw [mulRefLoop_fst_succ, mulRefLoop_fst_succ, apply_ite f, hxor, ih, hiter]

theorem mul_zero_right (a : Block) : mul a 0 = 0 := by
  have h := mul_xor a 0 0
  rwa [BitVec.xor_self, BitVec.xor_self] at h

theorem mul_mulX (a x : Block) : mul a (mulX x) = mulX (mul a x) :=
  (map_mulRefLoop_fst mulX_zero mulX_xor (fun _ => rfl) a x 128).symm

protected theorem mul_left_comm (a b c : Block) : mul a (mul b c) = mul b (mul a c) :=
  map_mulRefLoop_fst (mul_zero_right a) (mul_xor a) (mul_mulX a) b c 128

/-! ### The operator of X takes ONE to X -/

theorem getLsbD_gfOne (j : Nat) : gfOne.getLsbD j = decide (j = 127) := by
  have h : gfOne = BitVec.twoPow 128 127 := rfl
  rw [h, BitVec.getLsbD_twoPow]
  simp [eq_comm]

/-- x^i is the single bit 127 - i: none of the first 127 steps reduces (R7, R101). -/
theorem mulX_iterate_gfOne {i : Nat} (hi : i < 128) : mulX^[i] gfOne = gfOne >>> i := by
  induction i with
  | zero => rfl
  | succ i ih =>
    have hlow : (gfOne >>> i).getLsbD 0 = false := by
      rw [BitVec.getLsbD_ushiftRight, getLsbD_gfOne]
      exact decide_eq_false (by omega)
    rw [Function.iterate_succ_apply', ih (by omega), mulX, hlow, BitVec.shiftRight_add]
    rfl

/-- After i iterations on ONE the loop has copied X's coefficients of x^0 to x^(i-1). -/
theorem getLsbD_mulRefLoop_gfOne (x : Block) {i j : Nat} (hi : i ≤ 128) (hj : j < 128) :
    (mulRefLoop x gfOne i).1.getLsbD j = (decide (128 ≤ i + j) && x.getLsbD j) := by
  induction i with
  | zero => simp [mulRefLoop, Nat.not_le.2 hj]
  | succ i ih =>
    have hone : (mulX^[i] gfOne).getLsbD j = decide (i + j = 127) := by
      rw [mulX_iterate_gfOne (by omega), BitVec.getLsbD_ushiftRight, getLsbD_gfOne]
    rw [mulRefLoop_fst_succ, gfbit, apply_ite (BitVec.getLsbD · j), BitVec.getLsbD_xor, ih (by omega), hone]
    by_cases hij : i + j = 127
    · have hbit : 127 - i = j := by omega
      have hnow : 128 ≤ i + 1 + j := by omega
      cases hx : x.getLsbD j <;> simp [hbit, hnow, hx, hij]
    · have hsame : 128 ≤ i + 1 + j ↔ 128 ≤ i + j := by omega
      simp [hij, hsame]

@[simp] theorem mul_gfOne (x : Block) : mul x gfOne = x := by
  refine BitVec.eq_of_getLsbD_eq fun j hj => ?_
  rw [mul, mulRef, getLsbD_mulRefLoop_gfOne x le_rfl hj, decide_eq_true (by omega), Bool.true_and]

/-! ### The laws of the product (R105) -/

protected theorem mul_comm (a b : Block) : mul a b = mul b a :=
  calc mul a b = mul a (mul b gfOne) := by rw [mul_gfOne]
    _ = mul b (mul a gfOne) := Machine.mul_left_comm a b gfOne
    _ = mul b a := by rw [mul_gfOne]

protected theorem mul_assoc (a b c : Block) : mul (mul a b) c = mul a (mul b c) :=
  calc mul (mul a b) c = mul c (mul a b) := Machine.mul_comm _ c
    _ = mul a (mul c b) := Machine.mul_left_comm c a b
    _ = mul a (mul b c) := by rw [Machine.mul_comm c b]

/-- The product distributes over XOR in its first operand (R105). -/
theorem xor_mul (x y a : Block) : mul (x ^^^ y) a = mul x a ^^^ mul y a := by
  rw [Machine.mul_comm, mul_xor, Machine.mul_comm a x, Machine.mul_comm a y]

end Sys2Proof.Machine
end

section
/-! PROOFS. GHASH (spec/41_ghash.md): padding (R122), the fold over the 16-byte runs of a string (R121), and its closed form
as a polynomial in H (R127). -/

namespace Sys2Proof.Machine

/-! ### Padding and runs (R121, R122) -/

theorem pad16_of_whole {s : Bytes} (h : s.length % 16 = 0) : pad16 s = s := by simp [pad16, h]

/-- Settles O35: the pad's length is a remainder modulo 16, and it is 0 on whole blocks. -/
theorem paddingIsShortAndZero : Obligations.PaddingIsShortAndZero := fun s =>
  ⟨pad16_length_mod s, ⟨_, Nat.mod_lt _ (by decide), rfl⟩, fun hs => by rw [hs]; rfl, pad16_of_whole⟩

/-- The chunks of a string are its runs of 16 bytes at offsets 0, 16, and so on. -/
theorem chunks_eq_map_range (n : Nat) (s : Bytes) :
    chunks n s = (List.range n).map fun k => (s.drop (16 * k)).take 16 := by
  induction n with
  | zero => rfl
  | succ n ih => rw [chunks_add, ih, List.range_succ, List.map_append]; rfl

/-- Settles O34: `accumulateMany` folds the chunks, which are the runs by offset. -/
theorem accumulateManyIsOnePerBlock : Obligations.AccumulateManyIsOnePerBlock := by
  intro h y s n hs
  have hn : s.length / 16 = n := by omega
  rw [accumulateMany, hn, chunks_eq_map_range, List.foldl_map]

/-! ### The closed form (R127) -/

/-- H^k, the k-fold product of the subkey. -/
def gfPow (h : Block) (k : Nat) : Block := (mul h)^[k] gfOne

theorem gfPow_succ (h : Block) (k : Nat) : gfPow h (k + 1) = mul h (gfPow h k) := Function.iterate_succ_apply' ..

/-- The XOR of each block X_i times H^(m-i+1): the block at position i - 1 is followed by m - i others. -/
def powerSum (h : Block) (xs : List Block) : Block :=
  (xs.zipIdx.map fun p => mul p.1 (gfPow h (xs.length - p.2))).foldl (· ^^^ ·) 0

/-- The first block takes the highest power, and the exponents of the others do not change with it. -/
theorem powerSum_cons (h x : Block) (xs : List Block) :
    powerSum h (x :: xs) = mul x (gfPow h (xs.length + 1)) ^^^ powerSum h xs := by
  have hterms : (xs.zipIdx 1).map (fun p => mul p.1 (gfPow h (xs.length + 1 - p.2))) =
      xs.zipIdx.map fun p => mul p.1 (gfPow h (xs.length - p.2)) := by
    simp [List.zipIdx_succ, Function.comp_def]
  rw [powerSum, List.zipIdx_cons, List.map_cons, List.length_cons, hterms, List.foldl_cons, BitVec.xor_comm 0]
  exact List.foldl_assoc

/-- One accumulate before k more multiplies both its operands by H^(k+1). -/
theorem mul_accumulate_gfPow (h y x : Block) (k : Nat) :
    mul (accumulate h y x) (gfPow h k) = mul y (gfPow h (k + 1)) ^^^ mul x (gfPow h (k + 1)) := by
  rw [accumulate, Machine.mul_assoc, ← gfPow_succ, xor_mul]

/-- The fold of accumulate in closed form (R127). -/
theorem foldl_accumulate_eq (h y : Block) (xs : List Block) :
    xs.foldl (accumulate h) y = mul y (gfPow h xs.length) ^^^ powerSum h xs := by
  induction xs generalizing y with
  | nil =>
    calc y = mul y gfOne := (mul_gfOne y).symm
      _ = mul y gfOne ^^^ 0#128 := BitVec.xor_zero.symm
  | cons x xs ih =>
    rw [List.foldl_cons, ih, mul_accumulate_gfPow, powerSum_cons, List.length_cons, BitVec.xor_assoc]

/-- Settles O36, by induction on the blocks: `foldl_accumulate_eq` with H's powers and their sum written out. -/
theorem ghashIsThePolynomial : Obligations.GhashIsThePolynomial := foldl_accumulate_eq

end Sys2Proof.Machine
end

section
/-! PROOFS. INIT (spec/42_init.md). On an idle instance INIT is R250's chain of checks, then the context of R142 to R147; J0
and Y of that context are folds over padded strings. -/

namespace Sys2Proof.Machine

/-! ### J0 (R143, R144) -/

/-- One accumulate after a padded string is the fold with one more block (R121, R123). -/
theorem accumulate_ghashString (h y x : Block) (s : Bytes) :
    accumulate h (ghashString h y s) x = accumulateMany h y (pad16 s ++ blockBytes x) := by
  rw [accumulateMany_append h y _ _ (pad16_length_mod s), accumulateMany_block h _ (blockBytes_length x),
    blockOf_blockBytes]
  rfl

theorem initJ0_eq_gcmJ0 (h : Block) (iv : Bytes) : initJ0 h iv = gcmJ0 h iv := by
  rw [initJ0, gcmJ0, accumulate_ghashString]

/-! ### INIT by the phase and the checks (R140, R141, R148) -/

section
variable {s : State} {c : Context} {E : Cipher} {mode : Mode} {dir : Dir} {tagBits : Nat} (hc : s.ctx? = some c)
include hc

theorem initWith_busy (hp : c.phase ≠ .idle) :
    initWith E mode dir tagBits s = .next (s.respond ⟨.sequenceError, [], 0⟩) := by
  rw [initWith, State.withCtx_some hc, State.requireIdle_busy s hp, State.raise_eq]

/-- INIT on an idle instance: the parameters, the limit, the draw, then the context. -/
theorem initWith_idle (hp : c.phase = .idle) : initWith E mode dir tagBits s =
    if tagBits ∉ [32, 64, 96, 104, 112, 120, 128] ∨ s.opA = [] ∨ (mode = .gmac ∧ dir = .dec) then s.raise .paramInvalid
    else if Config.lenLimitBits < 8 * s.opA.length ∨ Config.lenLimitBits < 8 * s.opB.length then .refused .lengthLimit
    else if s.allocOk = false then s.raise .resourceExhausted
    else s.resolveCapability.finish (initContext E mode dir tagBits s.opKey s.opA s.opB) [] := by
  rw [initWith, State.withCtx_some hc, State.requireIdle_idle s hp, ← ite_or, ← ite_or]
  simp only [tagBitsLegal_iff, List.length_eq_zero_iff, overLimit_iff, or_assoc, Bool.not_eq_true]

/-- Past the checks on parameters and lengths only the draw decides. -/
theorem initWith_checked (hp : c.phase = .idle) (htag : tagBits ∈ [32, 64, 96, 104, 112, 120, 128]) (hiv : s.opA ≠ [])
    (hmd : ¬ (mode = .gmac ∧ dir = .dec)) (ha : 8 * s.opA.length ≤ Config.lenLimitBits)
    (hb : 8 * s.opB.length ≤ Config.lenLimitBits) : initWith E mode dir tagBits s =
    if s.allocOk = false then s.raise .resourceExhausted
    else s.resolveCapability.finish (initContext E mode dir tagBits s.opKey s.opA s.opB) [] := by
  rw [initWith_idle hc hp, if_neg (not_or.2 ⟨not_not.2 htag, not_or.2 ⟨hiv, hmd⟩⟩),
    if_neg (not_or.2 ⟨ha.not_gt, hb.not_gt⟩)]

end

/-- Settles O37: past the checks and with the draw granted INIT finishes with `initContext`, whose J0 is `gcmJ0`. -/
theorem initBuildsTheContext : Obligations.InitBuildsTheContext := by
  intro s c mode dir tagBits hc hp htag hiv hmd ha hb halloc
  calc exec (.init mode dir tagBits) s
      = s.resolveCapability.finish (initContext Config.E mode dir tagBits s.opKey s.opA s.opB) [] :=
        (initWith_checked hc hp htag hiv hmd ha hb).trans (if_neg (ne_false_of_eq_true halloc))
    _ = _ := by
        rw [State.resolveCapability_eq, initContext, initJ0_eq_gcmJ0]
        rfl

/-- Settles O38: the phase guard is the first check, and the three causes are the condition of the second. -/
theorem initRejectsBadParameters : Obligations.InitRejectsBadParameters := fun _ _ _ _ _ hc =>
  ⟨initWith_busy hc, fun hp hbad => (initWith_idle hc hp).trans (if_pos hbad)⟩

/-- Settles O39: past the checks a false draw is all that `initWith_checked` leaves. -/
theorem initWithoutAllocationWritesNothing : Obligations.InitWithoutAllocationWritesNothing :=
  fun _ _ _ _ _ hc hp htag hiv hmd ha hb halloc =>
    (initWith_checked hc hp htag hiv hmd ha hb).trans (if_pos halloc)

end Sys2Proof.Machine
end

section
/-! PROOFS. The encrypt path (spec/43_encrypt.md). On an active encrypt context whose registers all hold a value ENC_UPDATE
and ENC_FINAL are their chains of checks; past the checks ENC_FINAL emits one formula whether or not REM is empty. -/

namespace Sys2Proof.Machine

/-! ### The counter (R160) -/

/-- Bytes 0 to 11 lie in the upper 96 bits, which `inc32` keeps. -/
theorem blockByte_inc32_nonce (cb : Block) {i : Nat} (hi : i < 12) : blockByte (inc32 cb) i = blockByte cb i := by
  have hsplit : cb.extractLsb' 32 96 ++ cb.extractLsb' 0 32 = cb := BitVec.extractLsb'_append_extractLsb'
  have hupper (low : BitVec 32) : blockByte (cb.extractLsb' 32 96 ++ low) i =
      (cb.extractLsb' 32 96).extractLsb' (8 * (15 - i) - 32) 8 := BitVec.extractLsb'_append_eq_of_le (by omega)
  calc blockByte (inc32 cb) i
      = blockByte (cb.extractLsb' 32 96 ++ cb.extractLsb' 0 32) i := by rw [inc32, hupper, hupper]
    _ = blockByte cb i := by rw [hsplit]

/-- Bytes 12 to 15 are the counter plus one, big-endian. -/
theorem blockByte_inc32_counter (cb : Block) (i : Nat) :
    blockByte (inc32 cb) (12 + i) = (counterOf cb + 1#32).extractLsb' (8 * (3 - i)) 8 := by
  have hoffset : 15 - (12 + i) = 3 - i := by omega
  rw [blockByte, inc32, hoffset, BitVec.extractLsb'_append_eq_of_add_le (by omega), counterOf]

theorem blockBytes_inc32 (cb : Block) : blockBytes (inc32 cb) = (blockBytes cb).take 12 ++ be32 (counterOf cb + 1#32) := by
  have hnonce : (List.range 12).map (blockByte (inc32 cb)) = (blockBytes cb).take 12 := by
    rw [blockBytes, ← List.map_take, List.take_range]
    exact List.map_congr_left fun _ hi => blockByte_inc32_nonce cb (List.mem_range.1 hi)
  have hcounter : (List.range 4).map (blockByte (inc32 cb) ∘ (12 + ·)) = be32 (counterOf cb + 1#32) :=
    List.map_congr_left fun i _ => blockByte_inc32_counter cb i
  rw [blockBytes, List.range_add (n := 12) (m := 4), List.map_append, List.map_map, hnonce, hcounter]

theorem counterOf_add_one (cb : Block) : counterOf cb + 1#32 = BitVec.ofNat 32 ((cb.toNat % 2 ^ 32 + 1) % 2 ^ 32) := by
  apply BitVec.eq_of_toNat_eq
  simp [counterOf]

/-- Settles O27: `blockBytes_inc32`, with the stepped counter written as R160's number. -/
theorem inc32StepsOnlyTheCounter : Obligations.Inc32StepsOnlyTheCounter := by
  intro cb
  rw [blockBytes_inc32, counterOf_add_one]

/-! ### The short last block (R167, R168) -/

/-- Folding the padded output of a single block or less, as ENC_FINAL does, is hashing it as a string (R123). -/
theorem accumulate_pad16 (h y : Block) {ct : Bytes} (hpos : ct ≠ []) (hlen : ct.length ≤ 16) :
    accumulate h y (blockOf (pad16 ct)) = ghashString h y ct := by
  have hct : 0 < ct.length := List.length_pos_iff.2 hpos
  rw [ghashString, accumulateMany_block h y (by rw [pad16_length]; omega)]

/-! ### ENC_UPDATE and ENC_FINAL on a live encrypt context (R162, R163, R165 to R171) -/

section
variable {s : State} {v : Live} {rem ptBuf : Bytes} (E : Cipher)
  (hc : s.ctx? = some (v.context rem ptBuf)) (hd : v.dir = .enc)
include hc hd

/-- ENC_UPDATE within the length limit and without the space for its whole blocks (R163). -/
theorem encUpdateWith_noSpace (hm : v.mode = .gcm)
    (hlimit : v.dataBits.toNat + 8 * (rem ++ s.opA).length ≤ Config.lenLimitBits)
    (hcap : s.outcap < 16 * ((rem ++ s.opA).length / 16)) :
    encUpdateWith E s = s.raise .lengthRange (rlenOf (16 * ((rem ++ s.opA).length / 16))) := by
  have hguard (k : Result) : s.requireStream (v.context rem ptBuf) k = k := by
    rw [State.requireStream, State.requireActive_ok s rfl (by rw [Live.context_dir, hd]), Live.context_mode, need_some,
      if_pos hm]
  rw [encUpdateWith, State.withCtx_some hc, hguard]
  simp only [Live.context_dataBits, Live.context_rem, need_some]
  rw [if_neg (by rw [overLimit_iff]; exact hlimit.not_gt), if_pos hcap]

/-- ENC_FINAL with every register read: the checks, then the tag alone or the encrypted remainder before it. -/
theorem encFinalWith_live : encFinalWith E s =
    if v.mode = .gmac ∧ rem ≠ [] then
      s.raiseWith { v.context rem ptBuf with phase := .fault } .internalConsistency
    else if s.outcap < rem.length + v.tagLen.toNat then s.raise .lengthRange (rlenOf (rem.length + v.tagLen.toNat))
    else if rem.length = 0 then
      s.finish release (gcmTag E v.key v.h v.j0 v.y v.aadBits v.dataBits v.tagLen.toNat)
    else s.finish release ((ctrStep E v.key v.cb rem).2 ++
      gcmTag E v.key v.h v.j0 (accumulate v.h v.y (blockOf (pad16 (ctrStep E v.key v.cb rem).2))) v.aadBits
        (v.dataBits + BitVec.ofNat 64 (8 * rem.length)) v.tagLen.toNat) := by
  rw [encFinalWith, State.withCtx_some hc, State.requireActive_ok s rfl (by rw [Live.context_dir, hd])]
  rfl

/-- ENC_FINAL past its checks, in either mode: REM encrypted, the tag over it, the release. With REM empty the
ciphertext and its padding are empty too (R167 to R169). -/
theorem encFinalWith_fits (hgmac : v.mode = .gmac → rem = []) (hrem : rem.length < 16)
    (hcap : rem.length + v.tagLen.toNat ≤ s.outcap) :
    encFinalWith E s = s.finish release (ctrXor E v.key v.cb rem ++
      gcmTag E v.key v.h v.j0 (ghashString v.h v.y (ctrXor E v.key v.cb rem)) v.aadBits
        (v.dataBits + BitVec.ofNat 64 (8 * rem.length)) v.tagLen.toNat) := by
  rw [encFinalWith_live E hc hd, if_neg fun h => h.2 (hgmac h.1), if_neg hcap.not_gt]
  by_cases hempty : rem = []
  · subst hempty
    rw [if_pos List.length_nil]
    simp [ctrXor, ghashString, pad16]
  · have hne : ctrXor E v.key v.cb rem ≠ [] := by
      rwa [← List.length_pos_iff, ctrXor_length, List.length_pos_iff]
    rw [if_neg (mt List.length_eq_zero_iff.1 hempty), ctrStep_eq_ctrXor E v.key v.cb hrem.le,
      accumulate_pad16 v.h v.y hne (by rw [ctrXor_length]; exact hrem.le)]

end

/-- Settles O45: `encFinalWith_fits`, with the tag written as one fold over padded ciphertext and length block. -/
theorem encFinalEmitsRestAndTag : Obligations.EncFinalEmitsRestAndTag := by
  intro s v rem ptBuf hc hd hm hrem hcap
  have hgmac : v.mode = .gmac → rem = [] := fun h => by rw [hm] at h; cases h
  dsimp only
  rw [← gcmTag_ghashString]
  exact encFinalWith_fits Config.E hc hd hgmac hrem hcap

/-- Settles O43: |REM || A| is |REM| + |A|, and `raise` writes no register. -/
theorem encUpdateNeedsOutputSpace : Obligations.EncUpdateNeedsOutputSpace := by
  intro s v rem ptBuf hc hd hm hlimit hcap
  rw [← List.length_append] at hlimit hcap ⊢
  exact encUpdateWith_noSpace Config.E hc hd hm hlimit hcap

/-- Settles O47: past the GMAC check the space is all that `encFinalWith_live` asks for next. -/
theorem encFinalNeedsOutputSpace : Obligations.EncFinalNeedsOutputSpace := fun _ _ _ _ hc hd hgmac hcap =>
  (encFinalWith_live Config.E hc hd).trans ((if_neg fun h => h.2 (hgmac h.1)).trans (if_pos hcap))

/-- Settles O48: the GMAC check is the first one, before any look at the output space. -/
theorem gmacRemainderEndsInFault : Obligations.GmacRemainderEndsInFault := fun _ _ _ _ hc hd hm hrem =>
  (encFinalWith_live Config.E hc hd).trans (if_pos ⟨hm, hrem⟩)

end Sys2Proof.Machine
end

section
/-! PROOFS. The decrypt path (spec/44_decrypt.md). On an active decrypt context whose registers all hold a value DEC_UPDATE is
its chain of checks, and DEC_FINAL is its two length checks, then what follows the hash. -/

namespace Sys2Proof.Machine

/-! ### Comparing tags (R195) -/

/-- Strings of one length agree at every index exactly when they are equal. -/
theorem forall_getD_eq_iff {t u : Bytes} (h : t.length = u.length) :
    (∀ i, i < t.length → t.getD i 0 = u.getD i 0) ↔ t = u := by
  constructor
  · intro hat
    refine List.ext_getElem h fun i ht hu => ?_
    rw [← List.getD_eq_getElem t 0 ht, ← List.getD_eq_getElem u 0 hu]
    exact hat i ht
  · rintro rfl i -
    rfl

/-- Settles O56: the OR of the differences is zero only for equal tags, and those agree at every index. -/
theorem tagsEqualComparesEveryByte : Obligations.TagsEqualComparesEveryByte := fun _ _ h =>
  (tagsEqual_true h).trans (forall_getD_eq_iff h).symm

/-! ### DEC_UPDATE and DEC_FINAL by their checks (R190, R193, R194) -/

/-- DEC_FINAL outside ACTIVE, whatever the registers hold (R193). -/
theorem decFinalWith_inactive {E : Cipher} {s : State} {c : Context} (hc : s.ctx? = some c) (hp : c.phase ≠ .active) :
    decFinalWith E s = s.raise .sequenceError := by
  rw [decFinalWith, State.withCtx_some hc, State.requireActive_inactive s .dec hp]

section
variable {s : State} {v : Live} {rem ptBuf : Bytes} (hc : s.ctx? = some (v.context rem ptBuf)) (hd : v.dir = .dec)
include hc hd

/-- DEC_UPDATE past its guard: the empty operand, the limit, the capacity and the draw, then the append. -/
theorem execDecUpdate_live : execDecUpdate s =
    if s.opA = [] then s.finish (v.context rem ptBuf) []
    else if Config.lenLimitBits < 8 * (ptBuf.length + s.opA.length) then .refused .lengthLimit
    else if s.plat.ptBufCap < ptBuf.length + s.opA.length ∨ s.allocOk = false then s.raise .resourceExhausted
    else s.finish (v.context rem (ptBuf ++ s.opA)) [] := by
  rw [execDecUpdate, State.withCtx_some hc, State.requireActive_ok s rfl (by rw [Live.context_dir, hd])]
  simp only [List.length_eq_zero_iff, overLimit_iff, Bool.not_eq_true, Live.context_ptBuf]
  rfl

/-- DEC_FINAL past its guard is its two length checks, whatever the rest of it, hash and comparison, does (R194). -/
theorem decFinalWith_checksFirst (E : Cipher) : ∃ rest : Result, decFinalWith E s =
    if ptBuf.length < v.tagLen.toNat then s.raise .dataLenRange
    else if s.outcap < ptBuf.length - v.tagLen.toNat then s.raise .lengthRange (rlenOf (ptBuf.length - v.tagLen.toNat))
    else rest := by
  rw [decFinalWith, State.withCtx_some hc, State.requireActive_ok s rfl (by rw [Live.context_dir, hd])]
  exact ⟨_, rfl⟩

end

/-- Settles O49: past the limit, the capacity and the draw DEC_UPDATE finishes with the longer buffer, and for an empty
operand that buffer is the old one. -/
theorem decUpdateAppends : Obligations.DecUpdateAppends := by
  intro s v rem ptBuf hc hd hlimit hcap halloc
  have hroom : ¬ (s.plat.ptBufCap < ptBuf.length + s.opA.length ∨ s.allocOk = false) :=
    not_or.2 ⟨hcap.not_gt, ne_false_of_eq_true halloc⟩
  refine (execDecUpdate_live hc hd).trans ?_
  rw [if_neg hlimit.not_gt, if_neg hroom]
  by_cases hempty : s.opA = []
  · rw [if_pos hempty, hempty, List.append_nil]
    rfl
  · rw [if_neg hempty]
    rfl

/-- Settles O51: a non-empty operand within the limit comes to the check of capacity and draw, and `raise` writes no
register. -/
theorem decUpdateWithoutRoomChangesNothing : Obligations.DecUpdateWithoutRoomChangesNothing := by
  intro s v rem ptBuf hc hd hne hlimit hroom
  refine (execDecUpdate_live hc hd).trans ?_
  rw [if_neg hne, if_neg hlimit.not_gt]
  exact if_pos hroom

/-- Settles O55: the guard answers first, and `decFinalWith_checksFirst` takes the two length checks next, in R194's order. -/
theorem decFinalChecksBeforeHashing : Obligations.DecFinalChecksBeforeHashing := by
  refine ⟨fun s c => decFinalWith_inactive, fun s v rem ptBuf hc hd => ?_⟩
  obtain ⟨rest, hchecks⟩ := decFinalWith_checksFirst hc hd Config.E
  exact ⟨fun hshort => hchecks.trans (if_pos hshort),
    fun hlong hcap => hchecks.trans ((if_neg hlong.not_gt).trans (if_pos hcap))⟩

/-- Settles O54: past the length checks `decFinalWith_run` leaves the comparison, which a different tag of TAG_LEN bytes
fails. -/
theorem decFinalEmitsNothingOnMismatch : Obligations.DecFinalEmitsNothingOnMismatch := by
  intro s v rem ct tag hc hd htag hlen hcap hne
  rw [← gcmTag_ghashString] at hne
  have hsame := gcmTag_length Config.E v.key v.h v.j0 (ghashString v.h v.y ct) v.aadBits (BitVec.ofNat 64 (8 * ct.length))
    (htag ▸ hlen)
  exact (decFinalWith_run hc hd htag hcap).trans
    (if_neg fun heq => hne ((tagsEqual_true (hsame.trans htag.symm)).1 heq).symm)

end Sys2Proof.Machine
end

section
/-! PROOFS. Control (spec/45_control.md R221 to R224). A "-" of the legality table is a command whose first line fails on the
context; past that line no command answers SEQUENCE_ERROR, and the context it finishes with has the table's PHASE. -/

namespace Sys2Proof.Machine

/-- Settles O57: the one line of `execAbort`, on the addressed context. -/
theorem abortReleasesTheContext : Obligations.AbortReleasesTheContext := fun _ _ hc => State.withCtx_some hc _

/-! ### The table as the commands' first lines (R220, R221) -/

/-- The command's own first line raises SEQUENCE_ERROR for what it finds in the context's PHASE, DIR and MODE (R140, R162,
R165, R169, R190, R193). -/
def Context.Bars (c : Context) : Instr → Prop
  | .gfmul | .abort => False
  | .init _ _ _ => c.phase ≠ .idle
  | .encUpdate => c.phase ≠ .active ∨ c.dir = some .dec ∨ c.mode = some .gmac
  | .encFinal => c.phase ≠ .active ∨ ∃ d, c.dir = some d ∧ d ≠ .enc
  | .decUpdate | .decFinal => c.phase ≠ .active ∨ ∃ d, c.dir = some d ∧ d ≠ .dec

/-- The table has "-" exactly where the command's first line fails. ACTIVE, GMAC, DEC is no column: there `legalIn` says
"-" for DEC_UPDATE and DEC_FINAL, whose first lines do not look at MODE. -/
theorem Context.InColumn.illegal_iff {c : Context} {p : Phase} {m : Mode} {d : Dir} (hcol : c.InColumn p m d)
    (i : Instr) : legalIn i p m d = false ↔ c.Bars i := by
  obtain ⟨hp, hactive⟩ := hcol
  cases p with
  | idle => cases i <;> simp [legalIn, Context.Bars, hp]
  | fault => cases i <;> simp [legalIn, Context.Bars, hp]
  | active =>
    obtain ⟨hm, hd, hcolumn⟩ := hactive rfl
    cases m <;> cases d
    case gmac.dec => exact absurd ⟨rfl, rfl⟩ hcolumn
    all_goals cases i <;> simp [legalIn, Context.Bars, hp, hm, hd]

/-! ### Where the table has "-" (R222) -/

theorem State.requireActive_fails (s : State) {c : Context} {dir : Dir}
    (h : c.phase ≠ .active ∨ ∃ d, c.dir = some d ∧ d ≠ dir) (k : Result) :
    s.requireActive c dir k = s.raise .sequenceError := by
  rcases State.requireActive_cases s c dir k with ⟨hp, hd, -⟩ | ⟨-, he⟩ | ⟨hp, hd, -⟩
  · simp [hp, hd] at h
  · exact he
  · simp [hp, hd] at h

/-- In a column of the table ENC_UPDATE's guard finds a DIR and a MODE to read. -/
theorem State.requireStream_fails (s : State) {c : Context} {p : Phase} {m : Mode} {d : Dir} (hcol : c.InColumn p m d)
    (h : c.Bars .encUpdate) (k : Result) : s.requireStream c k = s.raise .sequenceError := by
  rcases State.requireStream_cases s c k with ⟨hp, hd, hm, -⟩ | ⟨-, he⟩ | ⟨hp, hnone, -⟩
  · simp [Context.Bars, hp, hd, hm] at h
  · exact he
  · obtain ⟨hphase, hactive⟩ := hcol
    obtain ⟨hm, hd, -⟩ := hactive (hphase.symm.trans hp)
    simp [hm, hd] at hnone

theorem exec_barred {i : Instr} {s : State} {c : Context} {p : Phase} {m : Mode} {d : Dir} (hc : s.ctx? = some c)
    (hcol : c.InColumn p m d) (h : c.Bars i) : exec i s = s.raise .sequenceError := by
  cases i with
  | gfmul => exact h.elim
  | init mode dir tagBits => exact (State.withCtx_some hc _).trans (State.requireIdle_busy s h _)
  | encUpdate => exact (State.withCtx_some hc _).trans (State.requireStream_fails s hcol h _)
  | encFinal => exact (State.withCtx_some hc _).trans (State.requireActive_fails s h _)
  | decUpdate => exact (State.withCtx_some hc _).trans (State.requireActive_fails s h _)
  | decFinal => exact (State.withCtx_some hc _).trans (State.requireActive_fails s h _)
  | abort => exact h.elim

/-! ### Where the table names a rule (R221) -/

/-- What the table says of a command that ran its rule in PHASE `p`, answered `r` and left `t`: no SEQUENCE_ERROR, the
table's PHASE after OK, and AUTH_FAILURE from DEC_FINAL alone, which leaves IDLE. -/
def RanRule (i : Instr) (p : Phase) (t : State) (r : Response) : Prop :=
  r.status ≠ .sequenceError ∧
  (r.status = .ok → ∃ c, t.ctx? = some c ∧ c.phase = phaseAfter i p) ∧
  (r.status = .authFailure → i = .decFinal ∧ ∃ c, t.ctx? = some c ∧ c.phase = .idle)

section
variable {i : Instr} {p : Phase} {s t u : State} {c : Context} {r : Response}

theorem RanRule.error {status : Status} {rlen : Count} (hu : u.outbox = s.outbox)
    (ho : (u.respond ⟨status, [], rlen⟩).outbox = s.outbox ++ [(s.req.inst, r)])
    (hs : status ≠ .ok ∧ status ≠ .sequenceError ∧ status ≠ .authFailure) : RanRule i p t r := by
  obtain rfl := State.respond_outbox_eq hu ho
  obtain ⟨hok, hseq, hauth⟩ := hs
  exact ⟨hseq, fun h => absurd h hok, fun h => absurd h hauth⟩

theorem RanRule.ok {out : Bytes} (hu : u.outbox = s.outbox)
    (ho : (u.respond ⟨.ok, out, 0⟩).outbox = s.outbox ++ [(s.req.inst, r)])
    (hc : u.ctx? = some c) (hp : c.phase = phaseAfter i p) : RanRule i p (u.respond ⟨.ok, out, 0⟩) r := by
  obtain rfl := State.respond_outbox_eq hu ho
  exact ⟨nofun, fun _ => ⟨c, hc, hp⟩, nofun⟩

theorem RanRule.authFailure (hu : u.outbox = s.outbox)
    (ho : (u.respond ⟨.authFailure, [], 0⟩).outbox = s.outbox ++ [(s.req.inst, r)])
    (hc : u.ctx? = some c) (hp : c.phase = .idle) : RanRule .decFinal p (u.respond ⟨.authFailure, [], 0⟩) r := by
  obtain rfl := State.respond_outbox_eq hu ho
  exact ⟨nofun, nofun, fun _ => ⟨rfl, c, hc, hp⟩⟩

variable (hc : s.ctx? = some c) (ho : t.outbox = s.outbox ++ [(s.req.inst, r)])
include hc ho

theorem execGfmul_ranRule (hp : c.phase = p) (h : execGfmul s = .next t) : RanRule .gfmul p t r := by
  obtain ⟨-, -, ⟨-, rfl⟩ | ⟨-, -, -, -, rfl⟩⟩ := execGfmul_next h
  · exact .error rfl ho (by decide)
  · exact .ok s.resolveCapability_outbox ho (by simpa using hc) hp

theorem initWith_ranRule {E : Cipher} {mode : Mode} {dir : Dir} {tagBits : Nat}
    (hfree : ¬ c.Bars (.init mode dir tagBits)) (h : initWith E mode dir tagBits s = .next t) :
    RanRule (.init mode dir tagBits) p t r := by
  obtain ⟨c', hc', hcases⟩ := initWith_next h
  obtain rfl := Option.some.inj (hc.symm.trans hc')
  obtain ⟨hbars, -⟩ | ⟨-, rfl⟩ | ⟨-, -, rfl⟩ | ⟨-, -, -, -, -, -, -, rfl⟩ := hcases
  · exact absurd hbars hfree
  · exact .error rfl ho (by decide)
  · exact .error rfl ho (by decide)
  · exact .ok s.resolveCapability_outbox ho (State.ctx?_setCtx (by simpa using hc) _) rfl

theorem encUpdateWith_ranRule {E : Cipher} (hfree : ¬ c.Bars .encUpdate) (h : encUpdateWith E s = .next t) :
    RanRule .encUpdate p t r := by
  obtain ⟨c', hc', hcases⟩ := encUpdateWith_next h
  obtain rfl := Option.some.inj (hc.symm.trans hc')
  obtain ⟨hbars, -⟩ | ⟨hp, -, -, db, -, -, ⟨-, rfl⟩ | ⟨-, rfl⟩ | ⟨-, -, key, cb, hk, y, -, -, -, -, rfl⟩⟩ := hcases
  · exact absurd hbars hfree
  · exact .error rfl ho (by decide)
  · exact .ok rfl ho (State.ctx?_setCtx hc _) hp
  · exact .ok rfl ho (State.ctx?_setCtx hc _) hp

theorem encFinalWith_ranRule {E : Cipher} (hfree : ¬ c.Bars .encFinal) (h : encFinalWith E s = .next t) :
    RanRule .encFinal p t r := by
  obtain ⟨c', hc', hcases⟩ := encFinalWith_next h
  obtain rfl := Option.some.inj (hc.symm.trans hc')
  obtain ⟨hbars, -⟩ | ⟨-, -, mode, -, ⟨-, -, rfl⟩ | ⟨-, tagLen, -, ⟨-, rfl⟩ | ⟨-, out, rfl⟩⟩⟩ := hcases
  · exact absurd hbars hfree
  · exact .error rfl ho (by decide)
  · exact .error rfl ho (by decide)
  · exact .ok rfl ho (State.ctx?_setCtx hc _) rfl

theorem execDecUpdate_ranRule (hfree : ¬ c.Bars .decUpdate) (h : execDecUpdate s = .next t) :
    RanRule .decUpdate p t r := by
  obtain ⟨c', hc', hcases⟩ := execDecUpdate_next h
  obtain rfl := Option.some.inj (hc.symm.trans hc')
  obtain ⟨hbars, -⟩ | ⟨hp, -, ⟨-, rfl⟩ | ⟨-, rfl⟩ | ⟨-, -, rfl⟩⟩ := hcases
  · exact absurd hbars hfree
  · exact .error rfl ho (by decide)
  · exact .ok rfl ho hc hp
  · exact .ok rfl ho (State.ctx?_setCtx hc _) hp

theorem decFinalWith_ranRule {E : Cipher} (hfree : ¬ c.Bars .decFinal) (h : decFinalWith E s = .next t) :
    RanRule .decFinal p t r := by
  obtain ⟨c', hc', hcases⟩ := decFinalWith_next h
  obtain rfl := Option.some.inj (hc.symm.trans hc')
  obtain ⟨hbars, -⟩ | ⟨-, -, tagLen, -, ⟨-, rfl⟩ | ⟨-, -, rfl⟩ | ⟨-, rfl⟩ |
    ⟨-, key, hk, y, j0, ab, out, -, -, -, -, -, -, rfl⟩⟩ := hcases
  · exact absurd hbars hfree
  · exact .error rfl ho (by decide)
  · exact .error rfl ho (by decide)
  · exact .authFailure rfl ho (State.ctx?_setCtx hc _) rfl
  · exact .ok rfl ho (State.ctx?_setCtx hc _) rfl

theorem execAbort_ranRule (h : execAbort s = .next t) : RanRule .abort p t r := by
  obtain ⟨-, -, rfl⟩ := execAbort_next h
  exact .ok rfl ho (State.ctx?_setCtx hc _) rfl

/-- Past its first line every command runs the rule the table names. -/
theorem exec_ranRule (hp : c.phase = p) (hfree : ¬ c.Bars i) (h : exec i s = .next t) : RanRule i p t r := by
  cases i with
  | gfmul => exact execGfmul_ranRule hc ho hp h
  | init mode dir tagBits => exact initWith_ranRule hc ho hfree h
  | encUpdate => exact encUpdateWith_ranRule hc ho hfree h
  | encFinal => exact encFinalWith_ranRule hc ho hfree h
  | decUpdate => exact execDecUpdate_ranRule hc ho hfree h
  | decFinal => exact decFinalWith_ranRule hc ho hfree h
  | abort => exact execAbort_ranRule hc ho h

end

/-- Settles O18: `InColumn.illegal_iff` turns the table's entry into the command's first line, which `exec_barred` and
`exec_ranRule` follow on either side. -/
theorem legalityIsTheTable : Obligations.LegalityIsTheTable := by
  intro i s c p m d hc hcol
  refine ⟨fun hdash => exec_barred hc hcol ((hcol.illegal_iff i).1 hdash), fun hrule t r h ho => ?_⟩
  have hfree : ¬ c.Bars i := fun hbars => Bool.false_ne_true (((hcol.illegal_iff i).2 hbars).symm.trans hrule)
  exact exec_ranRule hc ho hcol.1 hfree h

end Sys2Proof.Machine
end

section
/-! PROOFS. Encoding and decoding are inverse (spec/30_encoding.md sections 3 and 4). INIT's word is the sum of R82's
formula and every word is the sum of its fields, so the fields of the one are the summands of the other. -/

namespace Sys2Proof

theorem fieldRsv0_lt (w : CmdWord) : fieldRsv0 w < 4 := (w.extractLsb' 6 2).isLt

theorem fieldTagBits_lt (w : CmdWord) : fieldTagBits w < 256 := (w.extractLsb' 8 8).isLt

theorem modeBit_le (m : Mode) : modeBit m ≤ 1 := by cases m <;> decide

theorem dirBit_le (d : Dir) : dirBit d ≤ 1 := by cases d <;> decide

theorem modeBit_injective : Function.Injective modeBit := by intro a b h; cases a <;> cases b <;> trivial

theorem dirBit_injective : Function.Injective dirBit := by intro a b h; cases a <;> cases b <;> trivial

theorem modeBit_fieldMode (w : CmdWord) : modeBit (fieldMode w) = w.toNat / 2 ^ 4 % 2 := by
  rw [← Nat.toNat_testBit, BitVec.testBit_toNat, fieldMode]
  cases w.getLsbD 4 <;> rfl

theorem dirBit_fieldDir (w : CmdWord) : dirBit (fieldDir w) = w.toNat / 2 ^ 5 % 2 := by
  rw [← Nat.toNat_testBit, BitVec.testBit_toNat, fieldDir]
  cases w.getLsbD 5 <;> rfl

/-- MODE and DIR are the two bits of the field R80 tests together. -/
theorem fieldModeDir_eq (w : CmdWord) : fieldModeDir w = modeBit (fieldMode w) + 2 * dirBit (fieldDir w) := by
  rw [modeBit_fieldMode, dirBit_fieldDir, fieldModeDir, BitVec.extractLsb'_toNat, Nat.shiftRight_eq_div_pow]
  omega

/-- R82's formula with the bits of MODE and DIR as numbers. -/
theorem encode_init_toNat (m : Mode) (d : Dir) {t : Nat} (ht : t < 256) :
    (encode (.init m d t)).toNat = 2 + 16 * modeBit m + 32 * dirBit d + 256 * t := by
  rw [initWordIsTheFormula m d t ht]
  cases m <;> cases d <;> rfl

/-- A word with INIT's OPC and zero reserved fields is INIT, whatever its other fields (R79, R80). -/
theorem decode_init {w : CmdWord} (hopc : fieldOpc w = 2) (h0 : fieldRsv0 w = 0) (h1 : fieldRsv1 w = 0) :
    decode w = .ok (.init (fieldMode w) (fieldDir w) (fieldTagBits w)) := by
  simp [decode, hopc, h0, h1, instrOfOpc]

theorem decode_encode_init (m : Mode) (d : Dir) {t : Nat} (ht : t < 256) :
    decode (encode (.init m d t)) = .ok (.init m d t) := by
  have hword := word_toNat (encode (.init m d t))
  rw [encode_init_toNat m d ht, fieldModeDir_eq] at hword
  generalize encode (.init m d t) = w at hword ⊢
  have hm := modeBit_le m
  have hd := dirBit_le d
  have hm' := modeBit_le (fieldMode w)
  have hd' := dirBit_le (fieldDir w)
  have hopc := fieldOpc_lt w
  have hrsv0 := fieldRsv0_lt w
  have htag := fieldTagBits_lt w
  have hmode : fieldMode w = m := modeBit_injective (by omega)
  have hdir : fieldDir w = d := dirBit_injective (by omega)
  have htagBits : fieldTagBits w = t := by omega
  rw [decode_init (by omega) (by omega) (by omega), hmode, hdir, htagBits]

/-- Settles O3: six commands have one fixed word each, and INIT's word is `decode_encode_init`. -/
theorem encodeThenDecodeReturnsTheCommand : Obligations.EncodeThenDecodeReturnsTheCommand := by
  intro i hwf
  cases i with
  | init m d t => exact decode_encode_init m d (by simpa [Instr.wf, tagBitsFit] using hwf)
  | gfmul | encUpdate | encFinal | decUpdate | decFinal | abort => rfl

theorem encode_decoded_init {w : CmdWord} (hopc : fieldOpc w = 2) (h0 : fieldRsv0 w = 0) (h1 : fieldRsv1 w = 0) :
    encode (.init (fieldMode w) (fieldDir w) (fieldTagBits w)) = w := by
  apply BitVec.eq_of_toNat_eq
  rw [encode_init_toNat _ _ (fieldTagBits_lt w), word_toNat w, fieldModeDir_eq, hopc, h0, h1]
  ring

/-- Settles O4: the word is in a row of R84's table. Six rows are one word each; in INIT's the fields put back in their
places are the word. -/
theorem decodedWordEncodesBack : Obligations.DecodedWordEncodesBack := by
  intro w i h
  rcases (legalWordsAreTheTableRows w).1 ⟨i, h⟩ with rfl | hinit | rfl | rfl | rfl | rfl | rfl
  case inr.inl =>
    obtain ⟨hopc, h0, h1⟩ := (word_initMask_iff w).1 hinit
    obtain rfl := Except.ok.inj ((decode_init hopc h0 h1).symm.trans h)
    exact ⟨decide_eq_true (fieldTagBits_lt w), encode_decoded_init hopc h0 h1⟩
  all_goals
    obtain rfl := Except.ok.inj h
    exact ⟨rfl, rfl⟩

end Sys2Proof
end

section
/-! PROOFS. Streaming on the encrypt path (spec/43_encrypt.md sections 1, 2 and 5). ENC_UPDATE on a live encrypt context
is one chain of checks, whether or not there is a whole block; what it leaves is a function of REM || A, and that function
takes whole blocks in front apart, which is why a data stream can be split anywhere. -/

namespace Sys2Proof.Machine

/-! ### The whole blocks of a string and the rest (R162) -/

/-- The bytes of a string that fill blocks: what ENC_UPDATE encrypts. -/
def wholeBlocks (data : Bytes) : Bytes := data.take (16 * (data.length / 16))

/-- The bytes after the last whole block: what stays in REM. -/
def partialBlock (data : Bytes) : Bytes := data.drop (16 * (data.length / 16))

theorem wholeBlocks_append_partialBlock (data : Bytes) : wholeBlocks data ++ partialBlock data = data :=
  List.take_append_drop _ data

theorem wholeBlocks_length (data : Bytes) : (wholeBlocks data).length = 16 * (data.length / 16) := by
  rw [wholeBlocks, List.length_take]
  omega

theorem partialBlock_length (data : Bytes) : (partialBlock data).length = data.length % 16 := by
  rw [partialBlock, List.length_drop]
  omega

section
variable {data : Bytes} (h : data.length < 16)
include h

theorem wholeBlocks_short : wholeBlocks data = [] := by
  rw [← List.length_eq_zero_iff, wholeBlocks_length]
  omega

theorem partialBlock_short : partialBlock data = data := by
  have happ := wholeBlocks_append_partialBlock data
  rwa [wholeBlocks_short h, List.nil_append] at happ

end

section
variable {s : Bytes} {n : Nat} (hs : s.length = 16 * n) (u : Bytes)
include hs

theorem append_blocks : (s ++ u).length / 16 = n + u.length / 16 := by
  rw [List.length_append]
  omega

theorem wholeBlocks_append : wholeBlocks (s ++ u) = s ++ wholeBlocks u := by
  rw [wholeBlocks, append_blocks hs, Nat.mul_add, ← hs, List.take_length_add_append, wholeBlocks]

theorem partialBlock_append : partialBlock (s ++ u) = partialBlock u := by
  rw [partialBlock, append_blocks hs, Nat.mul_add, ← hs, List.drop_length_add_append, partialBlock]

end

/-! ### The registers after encrypting a string (R161, R162) -/

/-- What ENC_UPDATE makes of the registers: it encrypts the whole blocks of `data` = REM || A. -/
def Live.encrypted (E : Cipher) (v : Live) (data : Bytes) : Live :=
  { v with
    cb := inc32^[data.length / 16] v.cb
    y := accumulateMany v.h v.y (ctrXor E v.key v.cb (wholeBlocks data))
    dataBits := v.dataBits + BitVec.ofNat 64 (128 * (data.length / 16)) }

theorem Live.encrypted_short (E : Cipher) (v : Live) {data : Bytes} (h : data.length < 16) :
    v.encrypted E data = v := by
  rw [Live.encrypted, wholeBlocks_short h, Nat.div_eq_of_lt h]
  simp [ctrXor]

/-- Whole blocks in front are encrypted first, and the rest goes on from the registers they leave. -/
theorem Live.encrypted_append (E : Cipher) (v : Live) {s : Bytes} {n : Nat} (hs : s.length = 16 * n) (u : Bytes) :
    v.encrypted E (s ++ u) = (v.encrypted E s).encrypted E u := by
  have hblocks : s.length / 16 = n := by omega
  have hwhole : wholeBlocks s = s := by rw [wholeBlocks, hblocks, ← hs, List.take_length]
  have hlen : (ctrXor E v.key v.cb s).length % 16 = 0 := by rw [ctrXor_length]; omega
  have hcount : 128 * (n + u.length / 16) = 128 * n + 128 * (u.length / 16) := by ring
  simp only [Live.encrypted, append_blocks hs, wholeBlocks_append hs, hblocks, hwhole, ctrXor_append E v.key v.cb hs,
    accumulateMany_append _ _ _ _ hlen, hcount, BitVec.ofNat_add, BitVec.add_assoc]
  rw [Nat.add_comm n, Function.iterate_add_apply]

/-- Streaming in the registers: a string, and then what it leaves in REM before the next operand. -/
theorem Live.encrypted_stream (E : Cipher) (v : Live) (data a : Bytes) :
    v.encrypted E (data ++ a) = (v.encrypted E data).encrypted E (partialBlock data ++ a) := by
  have hshort : (partialBlock data).length < 16 := by rw [partialBlock_length]; omega
  have hfirst : v.encrypted E data = v.encrypted E (wholeBlocks data) :=
    calc v.encrypted E data = v.encrypted E (wholeBlocks data ++ partialBlock data) := by
          rw [wholeBlocks_append_partialBlock]
      _ = v.encrypted E (wholeBlocks data) := by
          rw [Live.encrypted_append E v (wholeBlocks_length data), Live.encrypted_short E _ hshort]
  rw [hfirst, ← Live.encrypted_append E v (wholeBlocks_length data), ← List.append_assoc,
    wholeBlocks_append_partialBlock]

theorem partialBlock_stream (data a : Bytes) : partialBlock (data ++ a) = partialBlock (partialBlock data ++ a) := by
  rw [← partialBlock_append (wholeBlocks_length data) (partialBlock data ++ a), ← List.append_assoc,
    wholeBlocks_append_partialBlock]

/-- Streaming in the ciphertext. -/
theorem ctrXor_stream (E : Cipher) (v : Live) (data a : Bytes) :
    ctrXor E v.key v.cb (wholeBlocks (data ++ a)) = ctrXor E v.key v.cb (wholeBlocks data) ++
      ctrXor E v.key (v.encrypted E data).cb (wholeBlocks (partialBlock data ++ a)) := by
  have hsplit : wholeBlocks (data ++ a) = wholeBlocks data ++ wholeBlocks (partialBlock data ++ a) := by
    rw [← wholeBlocks_append (wholeBlocks_length data), ← List.append_assoc, wholeBlocks_append_partialBlock]
  rw [hsplit, ctrXor_append E v.key v.cb (wholeBlocks_length data)]
  rfl

/-! ### ENC_UPDATE on a live encrypt context (R162, R163) -/

theorem State.requireStream_ok (s : State) {c : Context} (hp : c.phase = .active) (hd : c.dir = some .enc)
    (hm : c.mode = some .gcm) (k : Result) : s.requireStream c k = k := by
  rw [State.requireStream, State.requireActive_ok s hp hd, hm, need_some, if_pos rfl]

section
variable {s : State} {v : Live} {rem ptBuf : Bytes} (E : Cipher)
  (hc : s.ctx? = some (v.context rem ptBuf)) (hd : v.dir = .enc) (hm : v.mode = .gcm)
include hc hd hm

/-- ENC_UPDATE past its guard: the limit, the output space, the overlap, then the whole blocks of REM || A. -/
theorem encUpdateWith_live : encUpdateWith E s =
    if Config.lenLimitBits < v.dataBits.toNat + 8 * (rem ++ s.opA).length then .refused .lengthLimit
    else if s.outcap < 16 * ((rem ++ s.opA).length / 16) then
      s.raise .lengthRange (rlenOf (16 * ((rem ++ s.opA).length / 16)))
    else if 16 ≤ (rem ++ s.opA).length ∧ s.req.overlapA = .shifted then .refused .partialOverlap
    else s.finish ((v.encrypted E (rem ++ s.opA)).context (partialBlock (rem ++ s.opA)) ptBuf)
      (ctrXor E v.key v.cb (wholeBlocks (rem ++ s.opA))) := by
  rw [encUpdateWith, State.withCtx_some hc,
    State.requireStream_ok s rfl (by rw [Live.context_dir, hd]) (by rw [Live.context_mode, hm])]
  simp only [Live.context_dataBits, Live.context_rem, Live.context_key, Live.context_cb, Live.context_h, Live.context_y,
    need_some, overLimit_iff]
  refine ite_congr rfl (fun _ => rfl) fun _ => ite_congr rfl (fun _ => rfl) fun _ => ?_
  by_cases hshort : (rem ++ s.opA).length < 16
  · rw [if_pos (Nat.div_eq_of_lt hshort), if_neg fun h => h.1.not_gt hshort, Live.encrypted_short E v hshort,
      partialBlock_short hshort, wholeBlocks_short hshort]
    rfl
  · have hshift : s.shiftedA = true ↔ 16 ≤ (rem ++ s.opA).length ∧ s.req.overlapA = .shifted := by
      rw [State.shiftedA, beq_iff_eq, and_iff_right (Nat.not_lt.1 hshort)]
    rw [if_neg (by omega)]
    refine ite_congr (propext hshift) (fun _ => rfl) fun _ => ?_
    rw [encBlocks_eq E v.key v.h (Nat.mul_div_le _ 16)]
    rfl

/-- ENC_UPDATE past its checks. -/
theorem encUpdateWith_fits (hlimit : v.dataBits.toNat + 8 * (rem ++ s.opA).length ≤ Config.lenLimitBits)
    (hcap : 16 * ((rem ++ s.opA).length / 16) ≤ s.outcap)
    (hplaced : s.req.overlapA = .shifted → (rem ++ s.opA).length < 16) :
    encUpdateWith E s = s.finish ((v.encrypted E (rem ++ s.opA)).context (partialBlock (rem ++ s.opA)) ptBuf)
      (ctrXor E v.key v.cb (wholeBlocks (rem ++ s.opA))) := by
  rw [encUpdateWith_live E hc hd hm, if_neg hlimit.not_gt, if_neg hcap.not_gt,
    if_neg fun h => (hplaced h.2).not_ge h.1]

end

/-- Settles O42: `encUpdateWith_fits`, with the whole blocks and the rest of REM || A written out. -/
theorem encUpdateEncryptsWholeBlocks : Obligations.EncUpdateEncryptsWholeBlocks := by
  intro s v rem ptBuf hc hd hm hlimit hcap hplaced
  rw [← List.length_append] at hlimit hcap hplaced ⊢
  exact encUpdateWith_fits Config.E hc hd hm hlimit hcap hplaced

/-! ### Any split of the data stream (R172) -/

theorem Live.encrypted_dataBits_toNat (E : Cipher) {v : Live} {data : Bytes}
    (h : v.dataBits.toNat + 8 * data.length ≤ Config.lenLimitBits) :
    (v.encrypted E data).dataBits.toNat = v.dataBits.toNat + 128 * (data.length / 16) := by
  have hlimit : Config.lenLimitBits = 2 ^ 64 - 1 := rfl
  rw [Live.encrypted, BitVec.toNat_add, BitVec.toNat_ofNat]
  omega

/-- Successive ENC_UPDATEs leave what one ENC_UPDATE of REM and all the operands leaves, and emit its bytes. -/
theorem feed_encUpdate (pieces : List (Bytes × Count)) {s : State} {v : Live} {rem ptBuf : Bytes}
    (hc : s.ctx? = some (v.context rem ptBuf)) (hd : v.dir = .enc) (hm : v.mode = .gcm) (hrem : rem.length < 16)
    (hplaced : s.req.overlapA ≠ .shifted)
    (hlimit : v.dataBits.toNat + 8 * (rem ++ (pieces.map Prod.fst).flatten).length ≤ Config.lenLimitBits)
    (hcap : ∀ p ∈ pieces, (rem ++ (pieces.map Prod.fst).flatten).length ≤ p.2.toNat) :
    ∃ (t : State) (outs : List Bytes), feed .encUpdate s pieces = .next t ∧
      t.insts = s.insts.set s.req.inst ((v.encrypted Config.E (rem ++ (pieces.map Prod.fst).flatten)).context
        (partialBlock (rem ++ (pieces.map Prod.fst).flatten)) ptBuf) ∧
      outs.length = pieces.length ∧ t.outbox = s.outbox ++ outs.map (fun o => (s.req.inst, ⟨.ok, o, 0⟩)) ∧
      outs.flatten = ctrXor Config.E v.key v.cb (wholeBlocks (rem ++ (pieces.map Prod.fst).flatten)) := by
  induction pieces generalizing s v rem with
  | nil =>
    refine ⟨s, [], rfl, ?_, rfl, by simp, ?_⟩
    · rw [List.map_nil, List.flatten_nil, List.append_nil, Live.encrypted_short _ v hrem, partialBlock_short hrem]
      exact congrArg State.insts (State.setCtx_same hc).symm
    · rw [List.map_nil, List.flatten_nil, List.append_nil, wholeBlocks_short hrem]
      rfl
  | cons p pieces ih =>
    rw [List.map_cons, List.flatten_cons, ← List.append_assoc] at hlimit hcap ⊢
    have hlen := List.length_append (as := rem ++ p.1) (bs := (pieces.map Prod.fst).flatten)
    have hpart := partialBlock_length (rem ++ p.1)
    have hbits := Live.encrypted_dataBits_toNat Config.E (v := v) (data := rem ++ p.1) (by omega)
    have hroom := hcap p List.mem_cons_self
    have hfirst : exec .encUpdate (s.withOperand p.1 p.2) = _ :=
      encUpdateWith_fits (s := s.withOperand p.1 p.2) Config.E hc hd hm
        (show _ + 8 * (rem ++ p.1).length ≤ _ by omega)
        (show 16 * ((rem ++ p.1).length / 16) ≤ p.2.toNat by omega) (fun h => absurd h hplaced)
    have hrest := ih (s := ((s.withOperand p.1 p.2).setCtx
        ((v.encrypted Config.E (rem ++ p.1)).context (partialBlock (rem ++ p.1)) ptBuf)).respond
          ⟨.ok, ctrXor Config.E v.key v.cb (wholeBlocks (rem ++ p.1)), 0⟩)
      (v := v.encrypted Config.E (rem ++ p.1)) (rem := partialBlock (rem ++ p.1))
      (State.ctx?_setCtx (s := s.withOperand p.1 p.2) hc _) hd hm (by omega) hplaced
      (by rw [List.length_append]; omega)
      (fun q hq => by have := hcap q (List.mem_cons_of_mem p hq); rw [List.length_append]; omega)
    obtain ⟨t, outs, hfeed, hinsts, houts, houtbox, hflat⟩ := hrest
    refine ⟨t, ctrXor Config.E v.key v.cb (wholeBlocks (rem ++ p.1)) :: outs, ?_, ?_, ?_, ?_, ?_⟩
    · rw [feed, hfirst]
      exact hfeed
    · rw [hinsts, Live.encrypted_stream _ v (rem ++ p.1), partialBlock_stream (rem ++ p.1)]
      exact List.set_set ..
    · rw [List.length_cons, houts, List.length_cons]
    · rw [houtbox]
      simp
    · rw [List.flatten_cons, hflat, ctrXor_stream _ v (rem ++ p.1)]
      rfl

/-- Settles O44: both runs leave what `encUpdateWith_fits` says of REM and the concatenated operands. -/
theorem encUpdateSplitsAnywhere : Obligations.EncUpdateSplitsAnywhere := by
  intro s v rem ptBuf pieces cap hc hd hm hrem hplaced hlimit hcaps hcap
  rw [← List.length_append] at hlimit hcap hcaps
  obtain ⟨t, outs, hfeed, hinsts, houts, houtbox, hflat⟩ := feed_encUpdate pieces hc hd hm hrem hplaced hlimit hcaps
  have hwhole : exec .encUpdate (s.withOperand (pieces.map Prod.fst).flatten cap) = _ :=
    encUpdateWith_fits (s := s.withOperand (pieces.map Prod.fst).flatten cap) Config.E hc hd hm hlimit
      ((Nat.mul_div_le _ 16).trans hcap) (fun h => absurd h hplaced)
  refine ⟨t, _, outs, hfeed, hwhole, hinsts, houts, houtbox, ?_⟩
  rw [hflat]
  rfl

/-- Settles O46: with REM empty `encFinalWith_live` leaves the tag alone. -/
theorem gmacFinalEmitsTheTag : Obligations.GmacFinalEmitsTheTag := by
  intro s v ptBuf hc hd hm hcap
  have hroom : ¬ s.outcap < ([] : Bytes).length + v.tagLen.toNat := by
    rw [List.length_nil, Nat.zero_add]
    exact hcap.not_gt
  exact (encFinalWith_live Config.E hc hd).trans ((if_neg fun h => h.2 rfl).trans ((if_neg hroom).trans (if_pos rfl)))

end Sys2Proof.Machine
end

section
/-! PROOFS. The decrypt path, completed (spec/44_decrypt.md sections 1 and 2): DEC_UPDATE of nothing and of any split of
the input, and DEC_FINAL on a matching tag. -/

namespace Sys2Proof.Machine

/-- Settles O50: the empty operand is the first thing DEC_UPDATE looks at, and it writes back the context it read. -/
theorem decUpdateOfNothingIsOk : Obligations.DecUpdateOfNothingIsOk := by
  intro s v rem ptBuf hc hd hempty
  refine (execDecUpdate_live hc hd).trans ?_
  rw [if_pos hempty, State.finish_same hc]
  rfl

/-- Settles O52, by induction on the operands: each DEC_UPDATE appends its own, and the rest goes on from the longer
buffer. -/
theorem decUpdateSplitsAnywhere : Obligations.DecUpdateSplitsAnywhere := by
  intro s v rem ptBuf pieces hc hd halloc hlimit hcap
  induction pieces generalizing s ptBuf with
  | nil =>
    refine ⟨s, rfl, ?_, by simp⟩
    rw [List.map_nil, List.flatten_nil, List.append_nil]
    exact congrArg State.insts (State.setCtx_same hc).symm
  | cons p pieces ih =>
    rw [List.map_cons, List.flatten_cons, List.length_append] at hlimit hcap
    have hlen := List.length_append (as := ptBuf) (bs := p.1)
    have hfirst := decUpdateAppends (s.withOperand p.1 p.2) v rem ptBuf hc hd
      (show 8 * (ptBuf.length + p.1.length) ≤ _ by omega) (show ptBuf.length + p.1.length ≤ s.plat.ptBufCap by omega)
      halloc
    obtain ⟨t, hfeed, hinsts, houtbox⟩ := ih (((s.withOperand p.1 p.2).setCtx
        (v.context rem (ptBuf ++ p.1))).respond ⟨.ok, [], 0⟩) (ptBuf ++ p.1)
      (State.ctx?_setCtx (s := s.withOperand p.1 p.2) hc _) halloc (by omega)
      (show (ptBuf ++ p.1).length + _ ≤ s.plat.ptBufCap by omega)
    refine ⟨t, ?_, ?_, ?_⟩
    · rw [feed, hfirst]
      exact hfeed
    · rw [hinsts, List.map_cons, List.flatten_cons, ← List.append_assoc]
      exact List.set_set ..
    · rw [houtbox, List.length_cons, List.replicate_succ]
      simp

/-- Settles O53: past the length checks `decFinalWith_run` leaves the comparison, which the expected tag passes. -/
theorem decFinalReleasesPlaintextOnMatch : Obligations.DecFinalReleasesPlaintextOnMatch := by
  intro s v rem ct tag hc hd htag hcap hmatch
  rw [← gcmTag_ghashString] at hmatch
  refine (decFinalWith_run hc hd htag hcap).trans (if_pos ?_)
  rw [hmatch]
  exact (tagsEqual_true rfl).2 rfl

end Sys2Proof.Machine
end

section
/-! PROOFS. Blocks and the multiplier (spec/00_scope.md R6, 40_multiplier.md): the byte order of a block, the laws of
the product, GFMUL, and the accelerated path. In the reversed bit order the reference loop's step is multiplication by x
with x^128 reduced at once, and reducing b * x^i after the fact gives the same i steps one after another. -/

namespace Sys2Proof.Machine

/-! ### The byte order of a block (R6) -/

/-- The big-endian value of a byte string as a sum over its positions. -/
theorem foldl_bytes_eq_sum (s : Bytes) : s.foldl (fun acc x => acc * 256 + x.toNat) 0 =
    ∑ i ∈ Finset.range s.length, (s.getD i 0).toNat * 2 ^ (8 * (s.length - 1 - i)) := by
  induction s using List.reverseRecOn with
  | nil => rfl
  | append_singleton s x ih =>
    rw [List.foldl_append, ih, List.length_append, List.length_singleton, Finset.sum_range_succ, List.foldl_cons,
      List.foldl_nil, Finset.sum_mul]
    refine congrArg₂ (· + ·) (Finset.sum_congr rfl fun i hi => ?_) (by simp)
    have hlt : i < s.length := Finset.mem_range.1 hi
    rw [List.getD_append s [x] 0 i hlt, mul_assoc,
      show 8 * (s.length + 1 - 1 - i) = 8 * (s.length - 1 - i) + 8 by omega, pow_add]
    rfl

/-- Byte i of the big-endian value is byte i of the string. -/
theorem foldl_bytes_digit {s : Bytes} {i : Nat} (hi : i < s.length) :
    s.foldl (fun acc x => acc * 256 + x.toNat) 0 / 256 ^ (s.length - 1 - i) % 256 = s[i].toNat := by
  induction s using List.reverseRecOn with
  | nil => exact absurd hi (by simp)
  | append_singleton s x ih =>
    have hx : x.toNat < 256 := x.isLt
    rw [List.foldl_append, List.foldl_cons, List.foldl_nil, List.length_append, List.length_singleton]
    by_cases hlast : i < s.length
    · rw [List.getElem_append_left hlast, ← ih hlast, show s.length + 1 - 1 - i = s.length - 1 - i + 1 by omega,
        pow_succ', ← Nat.div_div_eq_div_mul]
      congr 2
      omega
    · obtain rfl : i = s.length := by simp at hi; omega
      rw [List.getElem_concat_length rfl]
      simp
      omega

theorem blockBytes_blockOf {s : Bytes} (hs : s.length = 16) : blockBytes (blockOf s) = s := by
  refine List.ext_getElem (by rw [blockBytes_length, hs]) fun i h1 hi => BitVec.eq_of_toNat_eq ?_
  have hdigit := foldl_bytes_digit hi
  rw [hs, ← (blockOf_toNat hs.le).1] at hdigit
  simp only [blockBytes, List.getElem_map, List.getElem_range, blockByte_toNat]
  rw [pow_mul]
  exact hdigit

/-- Settles O25: the fold over the bytes is the sum, and its digits are the bytes. -/
theorem blocksAreBigEndian : Obligations.BlocksAreBigEndian := by
  refine ⟨fun s hs => ?_, fun s => blockBytes_blockOf, blockOf_blockBytes⟩
  have hsum := foldl_bytes_eq_sum s
  rw [hs] at hsum
  rw [(blockOf_toNat hs.le).1, hsum]

/-! ### The laws of the product (R105) -/

/-- Settles O31. -/
theorem productCommutes : Obligations.ProductCommutes := Machine.mul_comm

/-- Settles O32. -/
theorem productAssociates : Obligations.ProductAssociates := Machine.mul_assoc

/-- Settles O30: the laws of the second operand, and commutativity for the first. -/
theorem productIsBilinear : Obligations.ProductIsBilinear := by
  refine ⟨fun a b c => xor_mul a b c, mul_xor, fun a => ⟨?_, mul_gfOne a⟩, fun a => ⟨?_, mul_zero_right a⟩⟩
  · rw [Machine.mul_comm, mul_gfOne]
  · rw [Machine.mul_comm, mul_zero_right]

/-! ### GFMUL (R106, R242) -/

/-- GFMUL on an existing instance is its two checks and the product. -/
theorem execGfmul_run {s : State} {c : Context} (hc : s.ctx? = some c) : execGfmul s =
    if s.opA.length ≠ 16 ∨ s.opB.length ≠ 16 then s.raise .paramInvalid
    else if s.req.overlapA = .shifted ∨ s.req.overlapB = .shifted then .refused .partialOverlap
    else .next (s.resolveCapability.respond ⟨.ok, blockBytes (mul (blockOf s.opA) (blockOf s.opB)), 0⟩) := by
  rw [execGfmul, State.withCtx_some hc]
  simp only [State.shiftedA, State.shiftedB, Bool.or_eq_true, beq_iff_eq]

/-- Settles O28: with both sizes right and no shifted overlap `execGfmul_run` leaves the product. -/
theorem gfmulEmitsTheProduct : Obligations.GfmulEmitsTheProduct := by
  intro s c hc ha hb hoverA hoverB
  refine (execGfmul_run hc).trans ?_
  rw [if_neg (not_or.2 ⟨not_not.2 ha, not_not.2 hb⟩), if_neg (not_or.2 ⟨hoverA, hoverB⟩), State.resolveCapability_eq]
  rfl

/-- Settles O29: the sizes are GFMUL's first check, and `raise` writes no register. -/
theorem gfmulRejectsOtherSizes : Obligations.GfmulRejectsOtherSizes := fun _ _ hc hsize =>
  (execGfmul_run hc).trans (if_pos hsize)

/-! ### The reversed bit order (R102) -/

theorem getLsbD_rev128 (v : Block) {i : Nat} (hi : i < 128) : (rev128 v).getLsbD i = v.getLsbD (127 - i) := by
  rw [rev128, BitVec.getLsbD_reverse, BitVec.getMsbD, decide_eq_true hi, Bool.true_and]

theorem rev128_rev128 (v : Block) : rev128 (rev128 v) = v := by
  refine BitVec.eq_of_getLsbD_eq fun i hi => ?_
  rw [getLsbD_rev128 _ hi, getLsbD_rev128 _ (by omega), Nat.sub_sub_self (by omega)]

theorem rev128_xor (a b : Block) : rev128 (a ^^^ b) = rev128 a ^^^ rev128 b := by
  refine BitVec.eq_of_getLsbD_eq fun i hi => ?_
  simp only [getLsbD_rev128 _ hi, BitVec.getLsbD_xor]

theorem rev128_ushiftRight_one (v : Block) : rev128 (v >>> 1) = rev128 v <<< 1 := by
  refine BitVec.eq_of_getLsbD_eq fun i hi => ?_
  rw [getLsbD_rev128 _ hi, BitVec.getLsbD_ushiftRight, BitVec.getLsbD_shiftLeft]
  by_cases h0 : i = 0
  · subst h0
    simp
  · rw [getLsbD_rev128 v (by omega), show 1 + (127 - i) = 127 - (i - 1) by omega]
    simp [hi, h0]

/-- The low part of R102's modulus, x^7 + x^2 + x + 1: R reversed. -/
def gfLow : Block := 0x87#128

/-- Multiplication by x in the reversed bit order, with x^128 reduced. -/
def timesX (v : Block) : Block := if v.getLsbD 127 then (v <<< 1) ^^^ gfLow else v <<< 1

theorem rev128_mulX (v : Block) : rev128 (mulX v) = timesX (rev128 v) := by
  have hlow : rev128 gfR = gfLow := by decide +kernel
  rw [mulX, timesX, getLsbD_rev128 v (by omega), apply_ite rev128, rev128_xor, rev128_ushiftRight_one, hlow]

theorem rev128_mulX_iterate (n : Nat) (v : Block) : rev128 (mulX^[n] v) = timesX^[n] (rev128 v) :=
  Function.Semiconj.iterate_right (f := rev128) rev128_mulX n v

/-! ### Reduction modulo P (R102) -/

/-- A subtraction of `g` under a linear condition is linear. -/
theorem cond_xor_linear {w : Nat} (p q : Bool) (c d g : BitVec w) :
    (if (p ^^ q) = true then c ^^^ d ^^^ g else c ^^^ d) =
      (if p = true then c ^^^ g else c) ^^^ (if q = true then d ^^^ g else d) := by
  have hcancel : c ^^^ g ^^^ (d ^^^ g) = c ^^^ d := by
    rw [show c ^^^ g ^^^ (d ^^^ g) = c ^^^ d ^^^ (g ^^^ g) by ac_rfl, BitVec.xor_self, BitVec.xor_zero]
  cases p <;> cases q <;>
    simp only [Bool.xor_false, Bool.false_xor, Bool.xor_self, Bool.false_eq_true, if_true, if_false]
  · ac_rfl
  · ac_rfl
  · exact hcancel.symm

theorem polyMod_xor (n : Nat) (c d : BitVec 256) : polyMod n (c ^^^ d) = polyMod n c ^^^ polyMod n d := by
  induction n generalizing c d with
  | zero => rfl
  | succ n ih =>
    rw [polyMod, polyMod, polyMod, ← ih, BitVec.getLsbD_xor, cond_xor_linear]

/-- Shifting into twice the width keeps the bit that the block's own shift drops. -/
theorem setWidth_shiftLeft_one (b : Block) : b.setWidth 256 <<< 1 =
    (b <<< 1).setWidth 256 ^^^ (if b.getLsbD 127 then BitVec.twoPow 256 128 else 0) := by
  refine BitVec.eq_of_getLsbD_eq fun i hi => ?_
  rw [BitVec.getLsbD_xor, BitVec.getLsbD_setWidth, BitVec.getLsbD_shiftLeft, BitVec.getLsbD_shiftLeft,
    BitVec.getLsbD_setWidth, apply_ite (BitVec.getLsbD · i), BitVec.getLsbD_twoPow]
  rcases Nat.lt_trichotomy i 128 with hlow | rfl | hhigh
  · simp [hi, hlow, hlow.ne', show i - 1 < 256 by omega]
  · simp
  · simp [hhigh.not_gt, hhigh.ne, BitVec.getLsbD_of_ge b (i - 1) (by omega)]

/-- Multiplying by x before the top coefficient is reduced. -/
theorem shiftLeft_one_reduced (b : Block) :
    (if b.getLsbD 127 then b.setWidth 256 <<< 1 ^^^ gfP else b.setWidth 256 <<< 1) = (timesX b).setWidth 256 := by
  have hP : gfP = BitVec.twoPow 256 128 ^^^ gfLow.setWidth 256 := by decide +kernel
  rw [setWidth_shiftLeft_one, timesX]
  split
  · rw [hP, BitVec.setWidth_xor, BitVec.xor_assoc, ← BitVec.xor_assoc (BitVec.twoPow 256 128), BitVec.xor_self,
      BitVec.zero_xor]
  · exact BitVec.xor_zero

/-- Reducing b * x^i is i steps of `timesX`: the top coefficient of b * x^(k+1) is reduced first, and what is left is
x^k times the next step's block. -/
theorem polyMod_shiftLeft {k i : Nat} (hk : k < 128) (hi : i ≤ k) (b : Block) :
    polyMod k (b.setWidth 256 <<< i) = (timesX^[i] b).setWidth 256 := by
  induction k generalizing i b with
  | zero =>
    obtain rfl := Nat.le_zero.1 hi
    simp [polyMod]
  | succ k ih =>
    have htop : (b.setWidth 256 <<< i).getLsbD (128 + k) = (decide (i = k + 1) && b.getLsbD 127) := by
      rw [BitVec.getLsbD_shiftLeft, BitVec.getLsbD_setWidth, decide_eq_true (by omega), decide_eq_false (by omega),
        decide_eq_true (by omega), Bool.true_and, Bool.true_and, Bool.not_false, Bool.true_and]
      by_cases hlast : i = k + 1
      · rw [decide_eq_true hlast, Bool.true_and, show 128 + k - i = 127 by omega]
      · rw [decide_eq_false hlast, Bool.false_and, BitVec.getLsbD_of_ge b _ (by omega)]
    rw [polyMod, htop]
    by_cases hlast : i = k + 1
    · subst hlast
      rw [decide_eq_true rfl, Bool.true_and, Function.iterate_succ_apply, ← ih (by omega) le_rfl,
        ← shiftLeft_one_reduced, apply_ite (fun c : BitVec 256 => c <<< k), BitVec.shiftLeft_xor_distrib,
        ← BitVec.shiftLeft_add, Nat.add_comm 1 k]
    · rw [decide_eq_false hlast, Bool.false_and, if_neg Bool.false_ne_true, ih (by omega) (by omega)]

/-- The accelerated path and the reference loop, bit by bit of the first operand. -/
theorem polyMod_clmul (x y : Block) {n : Nat} (hn : n ≤ 128) :
    (polyMod 127 (clmul (rev128 x) (rev128 y) n)).setWidth 128 = rev128 (mulRefLoop x y n).1 := by
  induction n with
  | zero =>
    have hzero : (polyMod 127 0).setWidth 128 = rev128 0 := by decide +kernel
    exact hzero
  | succ n ih =>
    have hbit : (rev128 x).getLsbD n = gfbit x n := getLsbD_rev128 x (by omega)
    rw [clmul, mulRefLoop_fst_succ, hbit]
    split
    · rw [polyMod_xor, BitVec.setWidth_xor, ih (by omega), polyMod_shiftLeft (by omega) (by omega), rev128_xor,
        rev128_mulX_iterate]
      simp
    · exact ih (by omega)

/-- Settles O33: `polyMod_clmul` for all 128 bits, reversed back. -/
theorem acceleratedPathEqualsReference : Obligations.AcceleratedPathEqualsReference := by
  intro a b
  rw [mulAccel, polyMod_clmul a b le_rfl, rev128_rev128, mulRef]

end Sys2Proof.Machine
end

section
/-! PROOFS. The step, reset, and the invariant that every step keeps (spec/45_control.md R220, 70_reset_and_hazards.md,
10_state.md section 3). The invariant speaks of contexts, CAP_STATE and parameters only; a command writes one context, so
each command owes the invariant of the context it writes, and, where that context is not idle, a resolved CAP_STATE. -/

namespace Sys2Proof.Machine

/-! ### The step and resets (R220, R270, R271) -/

theorem runCommand_ok {s : State} {i : Instr} (h : decode s.req.cmd.word = .ok i) : runCommand s = exec i s := by
  rw [runCommand, h]

theorem step_idle {s : State} (h : s.inbox = []) : step s = .next s := by
  rw [step, takeEvent_idle h]

theorem step_resetInstance {s : State} {n : Nat} {rest : List HostEvent} (h : s.inbox = .resetInstance n :: rest) :
    step s = .next (State.resetInstance { s with inbox := rest } n) := by
  rw [step, takeEvent_resetInstance h]

theorem step_resetPlatform {s : State} {rest : List HostEvent} (h : s.inbox = .resetPlatform :: rest) :
    step s = .next (State.resetPlatform { s with inbox := rest }) := by
  rw [step, takeEvent_resetPlatform h]

/-- Settles O8: the step runs the request it takes, by its decoding. -/
theorem stepRunsTheDecodedCommand : Obligations.StepRunsTheDecodedCommand :=
  ⟨fun _ _ _ _ hin hdec => (step_command hin).trans (runCommand_ok hdec), fun _ => step_idle⟩

theorem mem_reset_insts {c : Context} (h : c ∈ State.reset.insts) : c = Context.reset := by
  rcases List.mem_cons.1 h with rfl | h
  · rfl
  · exact List.eq_of_mem_replicate h

/-- Settles O9: every context of `State.reset` is `Context.reset`, and the two kinds of reset are the step's own
lines. -/
theorem resetLeavesIdleContexts : Obligations.ResetLeavesIdleContexts := by
  refine ⟨fun c hc => ?_, ?_, rfl, fun s n rest h => step_resetInstance h, fun s rest h => ?_⟩
  · rw [mem_reset_insts hc]
    exact ⟨rfl, rfl, rfl, rfl, rfl, rfl, rfl, rfl, rfl, rfl, rfl, rfl, rfl⟩
  · exact (List.length_cons ..).trans (congrArg (· + 1) List.length_replicate)
  · rw [step_resetPlatform h, State.resetPlatform, List.map_const']

/-- Settles O10: reset leaves idle contexts and CAP_STATE unprobed. -/
theorem invariantHoldsAtReset : Obligations.InvariantHoldsAtReset where
  someInstance := List.cons_ne_nil _ _
  contexts := fun _ hc => .inl (mem_reset_insts hc)
  capability := .inl rfl
  resolved := by
    rintro ⟨c, hc, hp⟩
    rw [mem_reset_insts hc] at hp
    exact absurd rfl hp

/-! ### The invariant of one live context (R35) -/

/-- The registers INIT leaves (R142 to R147). -/
def Live.started (E : Cipher) (mode : Mode) (dir : Dir) (tagBits : Nat) (key : KeySched) (iv aad : Bytes) : Live where
  mode := mode
  dir := dir
  key := key
  h := E key 0
  y := ghashString (E key 0) 0 aad
  cb := initJ0 (E key 0) iv
  j0 := initJ0 (E key 0) iv
  aadBits := BitVec.ofNat 64 (8 * aad.length)
  dataBits := 0
  tagLen := tagLenOf tagBits

theorem initContext_eq_started (E : Cipher) (mode : Mode) (dir : Dir) (tagBits : Nat) (key : KeySched)
    (iv aad : Bytes) :
    initContext E mode dir tagBits key iv aad = (Live.started E mode dir tagBits key iv aad).context [] [] := rfl

theorem tagLenOf_legal :
    ∀ tagBits ∈ [32, 64, 96, 104, 112, 120, 128], (tagLenOf tagBits).toNat ∈ [4, 8, 12, 13, 14, 15, 16] := by
  decide

theorem Live.started_inv (p : Platform) {mode : Mode} {dir : Dir} {tagBits : Nat}
    (htag : tagBits ∈ [32, 64, 96, 104, 112, 120, 128]) (hmd : ¬ (mode = .gmac ∧ dir = .dec)) (key : KeySched)
    (iv aad : Bytes) : (Live.started Config.E mode dir tagBits key iv aad).Inv p [] [] where
  subkey := rfl
  nonce := rfl
  counted := fun _ _ => ⟨0, rfl, (BitVec.add_zero _).symm⟩
  decrypting := fun _ => ⟨rfl, rfl, rfl⟩
  encrypting := fun _ => rfl
  gmac := fun hm => by
    cases dir with
    | enc => exact ⟨rfl, rfl, rfl⟩
    | dec => exact absurd ⟨hm, rfl⟩ hmd
  remShort := by decide
  tagLegal := tagLenOf_legal tagBits htag
  aadWhole := by
    rw [Live.started, BitVec.toNat_ofNat]
    omega
  dataFits := Nat.zero_le _
  bufFits := Nat.zero_le _
  bufCounted := Nat.zero_le _

/-- `inc32` steps the counter and keeps the nonce (R160). -/
theorem nonceOf_inc32 (b : Block) : nonceOf (inc32 b) = nonceOf b := by
  rw [nonceOf, inc32, BitVec.extractLsb'_append_eq_left]
  rfl

theorem counterOf_inc32 (b : Block) : counterOf (inc32 b) = counterOf b + 1#32 := by
  rw [counterOf, inc32, BitVec.extractLsb'_append_eq_right]
  rfl

theorem nonceOf_inc32_iterate (n : Nat) (b : Block) : nonceOf (inc32^[n] b) = nonceOf b := by
  induction n with
  | zero => rfl
  | succ n ih => rw [Function.iterate_succ_apply', nonceOf_inc32, ih]

theorem counterOf_inc32_iterate (n : Nat) (b : Block) : counterOf (inc32^[n] b) = counterOf b + BitVec.ofNat 32 n := by
  induction n with
  | zero => exact (BitVec.add_zero _).symm
  | succ n ih => rw [Function.iterate_succ_apply', counterOf_inc32, ih, BitVec.ofNat_add, BitVec.add_assoc]

section
variable {p : Platform} {v : Live} {rem ptBuf : Bytes} (hv : v.Inv p rem ptBuf)
include hv

/-- ENC_UPDATE's next registers: counter and DATA_BITS step together (R35 b). -/
theorem Live.Inv.encrypted (hd : v.dir = .enc) (hm : v.mode = .gcm) {data : Bytes}
    (hlimit : v.dataBits.toNat + 8 * data.length ≤ Config.lenLimitBits) :
    (v.encrypted Config.E data).Inv p (partialBlock data) ptBuf := by
  have hbits := Live.encrypted_dataBits_toNat Config.E hlimit
  have hpart := partialBlock_length data
  obtain ⟨k, hk, hcounter⟩ := hv.counted hd hm
  exact {
    hv with
    nonce := (nonceOf_inc32_iterate _ _).trans hv.nonce
    counted := fun _ _ => ⟨k + data.length / 16, by omega, (counterOf_inc32_iterate _ _).trans <| by
      rw [hcounter, BitVec.ofNat_add, BitVec.add_assoc]
      rfl⟩
    decrypting := fun h => by rw [Live.encrypted, hd] at h; cases h
    gmac := fun h => by rw [Live.encrypted, hm] at h; cases h
    remShort := by omega
    dataFits := by omega }

/-- DEC_UPDATE's longer buffer (R29, R191). -/
theorem Live.Inv.appended (hd : v.dir = .dec) {a : Bytes} (hcap : ptBuf.length + a.length ≤ p.ptBufCap)
    (hlimit : 8 * (ptBuf.length + a.length) ≤ Config.lenLimitBits) : v.Inv p rem (ptBuf ++ a) :=
  { hv with
    encrypting := fun h => by rw [hd] at h; cases h
    bufFits := by rwa [List.length_append]
    bufCounted := by rwa [List.length_append] }

end

/-! ### The invariant of the machine under the operations every command shares -/

section
variable {s : State} (hs : s.Inv)
include hs

/-- The channel has no part in the invariant. -/
theorem State.Inv.of_registers {t : State} (hinsts : t.insts = s.insts) (hcap : t.capState = s.capState)
    (hplat : t.plat = s.plat) : t.Inv where
  someInstance := by rw [hinsts]; exact hs.someInstance
  contexts := by rw [hinsts, hplat]; exact hs.contexts
  capability := by rw [hcap, hplat]; exact hs.capability
  resolved := by rw [hinsts, hcap]; exact hs.resolved

theorem State.Inv.respond (r : Response) : (s.respond r).Inv := hs.of_registers rfl rfl rfl

theorem State.Inv.accept (r : Request) (rest : List HostEvent) : (s.accept r rest).Inv := hs.of_registers rfl rfl rfl

/-- A context written at any place. -/
theorem State.Inv.set {t : State} {n : Nat} {d : Context} (hd : d.Inv s.plat) (hinsts : t.insts = s.insts.set n d)
    (hcap : t.capState = s.capState) (hplat : t.plat = s.plat) (hres : d.phase ≠ .idle → s.capState ≠ .unprobed) :
    t.Inv where
  someInstance := by
    rw [hinsts, Ne, List.set_eq_nil_iff]
    exact hs.someInstance
  contexts := fun c hc => by
    rw [hinsts] at hc
    rw [hplat]
    rcases List.mem_or_eq_of_mem_set hc with hold | rfl
    · exact hs.contexts c hold
    · exact hd
  capability := by
    rw [hcap, hplat]
    exact hs.capability
  resolved := by
    rintro ⟨c, hc, hp⟩
    rw [hinsts] at hc
    rw [hcap]
    rcases List.mem_or_eq_of_mem_set hc with hold | rfl
    · exact hs.resolved ⟨c, hold, hp⟩
    · exact hres hp

theorem State.Inv.setCtx {d : Context} (hd : d.Inv s.plat) (hres : d.phase ≠ .idle → s.capState ≠ .unprobed) :
    (s.setCtx d).Inv := hs.set hd rfl rfl rfl hres

theorem State.Inv.released : (s.setCtx Context.reset).Inv := hs.setCtx (.inl rfl) fun h => absurd rfl h

/-- A live context written over an ACTIVE one: CAP_STATE was resolved before. -/
theorem State.Inv.rewritten {c : Context} (hc : s.ctx? = some c) (hp : c.phase = .active) {v : Live} {rem ptBuf : Bytes}
    (hv : v.Inv s.plat rem ptBuf) : (s.setCtx (v.context rem ptBuf)).Inv :=
  hs.setCtx (.inr ⟨v, rem, ptBuf, rfl, hv⟩) fun _ =>
    hs.resolved ⟨c, List.mem_of_getElem? hc, by rw [hp]; decide⟩

/-- The addressed context, where it is ACTIVE, is a live one with its invariant. -/
theorem State.Inv.active {c : Context} (hc : s.ctx? = some c) (hp : c.phase = .active) :
    ∃ (v : Live) (rem ptBuf : Bytes), c = v.context rem ptBuf ∧ v.Inv s.plat rem ptBuf := by
  rcases hs.contexts c (List.mem_of_getElem? hc) with rfl | hlive
  · cases hp
  · exact hlive

end

theorem Platform.capability_ne_unprobed (p : Platform) : p.capability ≠ .unprobed := by
  unfold Platform.capability
  split <;> decide

theorem State.resolveCapability_ne_unprobed (s : State) : s.resolveCapability.capState ≠ .unprobed := by
  rw [State.resolveCapability_capState]
  split
  · exact s.plat.capability_ne_unprobed
  · assumption

theorem State.Inv.resolveCapability {s : State} (hs : s.Inv) : s.resolveCapability.Inv where
  someInstance := by simpa using hs.someInstance
  contexts := by simpa using hs.contexts
  capability := by
    rw [State.resolveCapability_capState, State.resolveCapability_plat]
    split
    · exact .inr rfl
    · exact hs.capability
  resolved := fun _ => s.resolveCapability_ne_unprobed

/-! ### Every command keeps the invariant -/

section
variable {s t : State} (hs : s.Inv)
include hs

theorem execGfmul_inv (h : execGfmul s = .next t) : t.Inv := by
  obtain ⟨c, -, ⟨-, rfl⟩ | ⟨-, -, -, -, rfl⟩⟩ := execGfmul_next h
  · exact hs.respond _
  · exact hs.resolveCapability.respond _

theorem initWith_inv {mode : Mode} {dir : Dir} {tagBits : Nat} (h : initWith Config.E mode dir tagBits s = .next t) :
    t.Inv := by
  obtain ⟨c, -, ⟨-, rfl⟩ | ⟨-, rfl⟩ | ⟨-, -, rfl⟩ | ⟨-, htag, -, hmd, -, -, -, rfl⟩⟩ := initWith_next h
  · exact hs.respond _
  · exact hs.respond _
  · exact hs.respond _
  · refine (hs.resolveCapability.setCtx ?_ fun _ => s.resolveCapability_ne_unprobed).respond _
    exact .inr ⟨_, [], [], initContext_eq_started .., Live.started_inv _ ((tagBitsLegal_iff _).1 htag) hmd ..⟩

theorem encUpdateWith_inv (h : encUpdateWith Config.E s = .next t) : t.Inv := by
  obtain ⟨c, hc, ⟨-, rfl⟩ | ⟨hp, hd, hm, -⟩⟩ := encUpdateWith_next h
  · exact hs.respond _
  · obtain ⟨v, rem, ptBuf, rfl, hv⟩ := hs.active hc hp
    have hd := Option.some.inj hd
    have hm := Option.some.inj hm
    rw [encUpdateWith_live Config.E hc hd hm] at h
    split at h
    · cases h
    rename_i hlimit
    split at h
    · cases h
      exact hs.respond _
    split at h
    · cases h
    · cases h
      exact (hs.rewritten hc hp (hv.encrypted hd hm (Nat.not_lt.1 hlimit))).respond _

/-- INTERNAL_CONSISTENCY is out of reach: in GMAC mode REM is empty (R35 e). -/
theorem encFinalWith_inv (h : encFinalWith Config.E s = .next t) : t.Inv := by
  obtain ⟨c, hc, ⟨-, rfl⟩ | ⟨hp, -, mode, hm, ⟨hg, hrem, -⟩ | ⟨-, tagLen, -, ⟨-, rfl⟩ | ⟨-, out, rfl⟩⟩⟩⟩ :=
    encFinalWith_next h
  · exact hs.respond _
  · obtain ⟨v, rem, ptBuf, rfl, hv⟩ := hs.active hc hp
    obtain ⟨-, hempty, -⟩ := hv.gmac ((Option.some.inj hm).trans hg)
    exact absurd hempty hrem
  · exact hs.respond _
  · exact hs.released.respond _

theorem execDecUpdate_inv (h : execDecUpdate s = .next t) : t.Inv := by
  obtain ⟨c, hc, ⟨-, rfl⟩ | ⟨hp, hd, ⟨-, rfl⟩ | ⟨-, rfl⟩ | ⟨hlimit, hcap, rfl⟩⟩⟩ := execDecUpdate_next h
  · exact hs.respond _
  · exact hs.respond _
  · exact hs.respond _
  · obtain ⟨v, rem, ptBuf, rfl, hv⟩ := hs.active hc hp
    exact (hs.rewritten hc hp (hv.appended (Option.some.inj hd) hcap hlimit)).respond _

theorem decFinalWith_inv (h : decFinalWith Config.E s = .next t) : t.Inv := by
  obtain ⟨c, -, ⟨-, rfl⟩ | ⟨-, -, tagLen, -, ⟨-, rfl⟩ | ⟨-, -, rfl⟩ | ⟨-, rfl⟩ |
    ⟨-, key, hk, y, j0, ab, out, -, -, -, -, -, -, rfl⟩⟩⟩ := decFinalWith_next h
  · exact hs.respond _
  · exact hs.respond _
  · exact hs.respond _
  · exact hs.released.respond _
  · exact hs.released.respond _

theorem execAbort_inv (h : execAbort s = .next t) : t.Inv := by
  obtain ⟨c, -, rfl⟩ := execAbort_next h
  exact hs.released.respond _

theorem exec_inv {i : Instr} (h : exec i s = .next t) : t.Inv := by
  cases i with
  | gfmul => exact execGfmul_inv hs h
  | init mode dir tagBits => exact initWith_inv hs h
  | encUpdate => exact encUpdateWith_inv hs h
  | encFinal => exact encFinalWith_inv hs h
  | decUpdate => exact execDecUpdate_inv hs h
  | decFinal => exact decFinalWith_inv hs h
  | abort => exact execAbort_inv hs h

theorem runCommand_inv (h : runCommand s = .next t) : t.Inv := by
  cases hdec : decode s.req.cmd.word with
  | ok i =>
    rw [runCommand_ok hdec] at h
    exact exec_inv hs h
  | error e =>
    rw [runCommand_error hdec] at h
    rw [State.illegalCommand_next h]
    exact hs.respond _

theorem resetInstance_inv (n : Nat) (rest : List HostEvent) : (State.resetInstance { s with inbox := rest } n).Inv :=
  hs.set (d := Context.reset) (.inl rfl) rfl rfl rfl fun h => absurd rfl h

theorem resetPlatform_inv (rest : List HostEvent) : (State.resetPlatform { s with inbox := rest }).Inv where
  someInstance := fun h => hs.someInstance (List.map_eq_nil_iff.1 h)
  contexts := fun c hc => by
    obtain ⟨_, -, rfl⟩ := List.mem_map.1 hc
    exact .inl rfl
  capability := .inl rfl
  resolved := by
    rintro ⟨c, hc, hp⟩
    obtain ⟨_, -, rfl⟩ := List.mem_map.1 hc
    exact absurd rfl hp

end

/-- Settles O11, by the event the step takes: none, a command (`runCommand_inv`), or a reset. -/
theorem stepKeepsTheInvariant : Obligations.StepKeepsTheInvariant := by
  intro s t hs h
  cases hin : s.inbox with
  | nil =>
    rw [step_idle hin] at h
    cases h
    exact hs
  | cons event rest =>
    cases event with
    | command r =>
      rw [step_command hin] at h
      exact runCommand_inv (hs.accept r rest) h
    | resetInstance n =>
      rw [step_resetInstance hin] at h
      cases h
      exact resetInstance_inv hs n rest
    | resetPlatform =>
      rw [step_resetPlatform hin] at h
      cases h
      exact resetPlatform_inv hs rest

end Sys2Proof.Machine
end

section
/-! PROOFS. Refusals (spec/00_scope.md R12, 20_memory.md R57, R58). A command is taken apart along its pseudocode: each
place where it refuses owes one of the named causes. From the invariant an admissible request has none of them and no
command faults, so the step answers. -/

namespace Sys2Proof.Machine

/-- Every refusal of the outcome has the cause `P`. -/
def RefusesOnlyFor (P : Refusal → Prop) (o : Result) : Prop := ∀ q, o = .refused q → P q

section
variable {P : Refusal → Prop} {s : State}

theorem RefusesOnlyFor.next {t : State} : RefusesOnlyFor P (.next t) := fun _ h => by cases h

theorem RefusesOnlyFor.refused {q : Refusal} (h : P q) : RefusesOnlyFor P (.refused q) := by
  rintro _ ⟨⟩
  exact h

theorem RefusesOnlyFor.ite {p : Prop} [Decidable p] {a b : Result} (ha : p → RefusesOnlyFor P a)
    (hb : ¬ p → RefusesOnlyFor P b) : RefusesOnlyFor P (if p then a else b) := by
  split
  · exact ha ‹_›
  · exact hb ‹_›

theorem RefusesOnlyFor.need {α : Type} {r : Reg} {v : Option α} {k : α → Result}
    (h : ∀ a, v = some a → RefusesOnlyFor P (k a)) : RefusesOnlyFor P (need r v k) := by
  intro q hq
  obtain ⟨a, ha, hk⟩ := need_refused hq
  exact h a ha q hk

theorem RefusesOnlyFor.withCtx {k : Context → Result} (hnone : s.ctx? = none → P .noSuchInstance)
    (h : ∀ c, s.ctx? = some c → RefusesOnlyFor P (k c)) : RefusesOnlyFor P (s.withCtx k) := by
  intro q hq
  rcases State.withCtx_refused hq with ⟨hc, rfl⟩ | ⟨c, hc, hk⟩
  · exact hnone hc
  · exact h c hc q hk

variable {c : Context} {k : Result}

theorem RefusesOnlyFor.requireIdle (hk : RefusesOnlyFor P k) : RefusesOnlyFor P (s.requireIdle c k) :=
  .ite (fun _ => hk) fun _ => .next

theorem RefusesOnlyFor.requireActive {dir : Dir} (hk : RefusesOnlyFor P k) :
    RefusesOnlyFor P (s.requireActive c dir k) :=
  .ite (fun _ => .need fun _ _ => .ite (fun _ => hk) fun _ => .next) fun _ => .next

theorem RefusesOnlyFor.requireStream (hk : RefusesOnlyFor P k) : RefusesOnlyFor P (s.requireStream c k) :=
  .requireActive <| .need fun _ _ => .ite (fun _ => hk) fun _ => .next

end

/-! ### The named causes (R57, R58, R256) -/

/-- A cause named in R57, R58 or R256 for the refusal `q` of the command `i` in the state `s`. -/
def NamedRefusal (i : Instr) (s : State) (q : Refusal) : Prop :=
  (q = .noSuchInstance ∧ s.ctx? = none) ∨
  (q = .lengthLimit ∧ ∃ c, s.ctx? = some c ∧
    (Config.lenLimitBits < 8 * s.opA.length ∨ Config.lenLimitBits < 8 * s.opB.length ∨
      Config.lenLimitBits < (c.dataBits.getD 0).toNat + 8 * (c.rem.length + s.opA.length) ∨
      Config.lenLimitBits < 8 * (c.ptBuf.length + s.opA.length))) ∨
  (q = .partialOverlap ∧ (s.req.overlapA = .shifted ∨ (i = .gfmul ∧ s.req.overlapB = .shifted)))

section
variable {i : Instr} {s : State} {c : Context}

theorem NamedRefusal.noSuchInstance (h : s.ctx? = none) : NamedRefusal i s .noSuchInstance := .inl ⟨rfl, h⟩

theorem NamedRefusal.ivOrAad (hc : s.ctx? = some c)
    (h : Config.lenLimitBits < 8 * s.opA.length ∨ Config.lenLimitBits < 8 * s.opB.length) :
    NamedRefusal i s .lengthLimit :=
  .inr (.inl ⟨rfl, c, hc, h.imp_right .inl⟩)

theorem NamedRefusal.data (hc : s.ctx? = some c) {dataBits : Count} (hbits : c.dataBits = some dataBits)
    (h : Config.lenLimitBits < dataBits.toNat + 8 * (c.rem ++ s.opA).length) : NamedRefusal i s .lengthLimit :=
  .inr (.inl ⟨rfl, c, hc, .inr (.inr (.inl (by rwa [hbits, Option.getD_some, ← List.length_append])))⟩)

theorem NamedRefusal.buffer (hc : s.ctx? = some c)
    (h : Config.lenLimitBits < 8 * (c.ptBuf.length + s.opA.length)) : NamedRefusal i s .lengthLimit :=
  .inr (.inl ⟨rfl, c, hc, .inr (.inr (.inr h))⟩)

theorem NamedRefusal.overlapA (h : s.shiftedA = true) : NamedRefusal i s .partialOverlap :=
  .inr (.inr ⟨rfl, .inl (beq_iff_eq.1 h)⟩)

theorem NamedRefusal.overlapB (h : s.shiftedB = true) : NamedRefusal .gfmul s .partialOverlap :=
  .inr (.inr ⟨rfl, .inr ⟨rfl, beq_iff_eq.1 h⟩⟩)

end

/-! ### The commands -/

section
variable (s : State)

theorem execGfmul_refuses : RefusesOnlyFor (NamedRefusal .gfmul s) (execGfmul s) :=
  .withCtx .noSuchInstance fun _ _ => .ite (fun _ => .next) fun _ =>
    .ite (fun h => .refused ((Bool.or_eq_true_iff.1 h).elim .overlapA .overlapB)) fun _ => .next

theorem execInit_refuses (mode : Mode) (dir : Dir) (tagBits : Nat) :
    RefusesOnlyFor (NamedRefusal (.init mode dir tagBits) s) (execInit mode dir tagBits s) :=
  .withCtx .noSuchInstance fun _ hc => .requireIdle <|
    .ite (fun _ => .next) fun _ => .ite (fun _ => .next) fun _ => .ite (fun _ => .next) fun _ =>
    .ite (fun h => .refused (.ivOrAad hc (h.imp (overLimit_iff _).1 (overLimit_iff _).1))) fun _ =>
    .ite (fun _ => .next) fun _ => .next

theorem execEncUpdate_refuses : RefusesOnlyFor (NamedRefusal .encUpdate s) (execEncUpdate s) :=
  .withCtx .noSuchInstance fun _ hc => .requireStream <| .need fun _ hbits =>
    .ite (fun h => .refused (.data hc hbits ((overLimit_iff _).1 h))) fun _ =>
    .ite (fun _ => .next) fun _ => .ite (fun _ => .next) fun _ =>
    .ite (fun h => .refused (.overlapA h)) fun _ =>
    .need fun _ _ => .need fun _ _ => .need fun _ _ => .need fun _ _ => .next

theorem execEncFinal_refuses : RefusesOnlyFor (NamedRefusal .encFinal s) (execEncFinal s) :=
  .withCtx .noSuchInstance fun _ _ => .requireActive <| .need fun _ _ =>
    .ite (fun _ => .next) fun _ => .need fun _ _ => .ite (fun _ => .next) fun _ =>
    .need fun _ _ => .need fun _ _ => .need fun _ _ => .need fun _ _ => .need fun _ _ => .need fun _ _ =>
    .ite (fun _ => .next) fun _ => .need fun _ _ => .next

theorem execDecUpdate_refuses : RefusesOnlyFor (NamedRefusal .decUpdate s) (execDecUpdate s) :=
  .withCtx .noSuchInstance fun _ hc => .requireActive <| .ite (fun _ => .next) fun _ =>
    .ite (fun h => .refused (.buffer hc ((overLimit_iff _).1 h))) fun _ =>
    .ite (fun _ => .next) fun _ => .next

theorem execDecFinal_refuses : RefusesOnlyFor (NamedRefusal .decFinal s) (execDecFinal s) :=
  .withCtx .noSuchInstance fun _ _ => .requireActive <| .need fun _ _ =>
    .ite (fun _ => .next) fun _ => .ite (fun _ => .next) fun _ =>
    .need fun _ _ => .need fun _ _ => .need fun _ _ => .need fun _ _ => .need fun _ _ =>
    .ite (fun _ => .next) fun _ => .ite (fun _ => .next) fun _ => .need fun _ _ => .next

theorem execAbort_refuses : RefusesOnlyFor (NamedRefusal .abort s) (execAbort s) :=
  .withCtx .noSuchInstance fun _ _ => .next

end

/-- Settles O14, command by command. -/
theorem refusalsAreTheNamedOnes : Obligations.RefusalsAreTheNamedOnes := by
  intro i s q h
  cases i with
  | gfmul => exact execGfmul_refuses s q h
  | init mode dir tagBits => exact execInit_refuses s mode dir tagBits q h
  | encUpdate => exact execEncUpdate_refuses s q h
  | encFinal => exact execEncFinal_refuses s q h
  | decUpdate => exact execDecUpdate_refuses s q h
  | decFinal => exact execDecFinal_refuses s q h
  | abort => exact execAbort_refuses s q h

/-! ### Admissible requests -/

/-- An admissible request being executed has none of the causes. -/
theorem Request.Admissible.not_refused {s : State} {r : Request} {c : Context} (h : r.Admissible s c)
    (rest : List HostEvent) {i : Instr} (hi : decode r.cmd.word = .ok i) (q : Refusal) :
    exec i (s.accept r rest) ≠ .refused q := by
  intro hq
  rcases refusalsAreTheNamedOnes i _ q hq with ⟨-, hnone⟩ | ⟨-, c', hc', hlimit⟩ | ⟨-, hover⟩
  · exact Option.some_ne_none c (h.hasInstance.symm.trans hnone)
  · obtain rfl := Option.some.inj (h.hasInstance.symm.trans hc')
    rcases hlimit with hiv | haad | hdata | hbuf
    · exact h.ivFits.not_gt hiv
    · exact h.aadFits.not_gt haad
    · exact h.encFits.not_gt hdata
    · exact h.decFits.not_gt hbuf
  · rcases hover with hA | ⟨rfl, hB⟩
    · exact h.placedA hA
    · exact h.placedB hi hB

/-- Settles O13: a command neither faults (`exec_faultless`) nor refuses (`Request.Admissible.not_refused`), and a word
that is none is answered too. -/
theorem admissibleRequestIsAnswered : Obligations.AdmissibleRequestIsAnswered := by
  intro s r rest c hs hin hadm
  rw [step_command hin]
  cases hdec : decode r.cmd.word with
  | error e => exact ⟨_, (runCommand_error hdec).trans (State.illegalCommand_eq (c := c) hadm.hasInstance)⟩
  | ok i =>
    rw [runCommand_ok hdec]
    have hvalued : ∀ c, (s.accept r rest).ctx? = some c → c.Valued := fun _ hc => (hs.accept r rest).ctx?_valued hc
    cases hexec : exec i (s.accept r rest) with
    | next t => exact ⟨t, rfl⟩
    | fault f => exact absurd hexec (exec_faultless hvalued i f)
    | refused q => exact absurd hexec (hadm.not_refused rest hdec q)

/-! ### Where a refusal is reached (R57, R58) -/

/-- Settles O40: the checks before the limit pass, one command at a time. -/
theorem lengthLimitIsRefused : Obligations.LengthLimitIsRefused := by
  refine ⟨fun s c mode dir tagBits hc hp htag hiv hmd hlen => ?_, fun s v rem ptBuf hc hd hm hlen => ?_,
    fun s v rem ptBuf hc hd hne hlen => ?_⟩
  · exact (initWith_idle hc hp).trans
      ((if_neg (not_or.2 ⟨not_not.2 htag, not_or.2 ⟨hiv, hmd⟩⟩)).trans (if_pos hlen))
  · rw [← List.length_append] at hlen
    exact (encUpdateWith_live Config.E hc hd hm).trans (if_pos hlen)
  · exact (execDecUpdate_live hc hd).trans ((if_neg hne).trans (if_pos hlen))

/-- Settles O41: the overlap is the last check of GFMUL and of ENC_UPDATE. -/
theorem partialOverlapIsRefused : Obligations.PartialOverlapIsRefused := by
  refine ⟨fun s c hc ha hb hover => ?_, fun s v rem ptBuf hc hd hm hlimit hblock hcap hover => ?_⟩
  · exact (execGfmul_run hc).trans ((if_neg (not_or.2 ⟨not_not.2 ha, not_not.2 hb⟩)).trans (if_pos hover))
  · rw [← List.length_append] at hlimit hblock hcap
    exact (encUpdateWith_live Config.E hc hd hm).trans
      ((if_neg hlimit.not_gt).trans ((if_neg hcap.not_gt).trans (if_pos ⟨hblock, hover⟩)))

end Sys2Proof.Machine
end

section
/-! PROOFS. What a command may write (spec/60_exceptions.md section 1, 45_control.md R225, 10_state.md sections 2 and 3).
A command that completes ends in one of four ways; errors are precise and CAP_STATE is written once by those four. -/

namespace Sys2Proof.Machine

/-- Settles O15: a next state differs in CAP_STATE, the addressed context and one more response. -/
theorem commandTouchesOnlyItsInstance : Obligations.CommandTouchesOnlyItsInstance := by
  intro i s t h
  obtain ⟨c, d, r, cap, -, rfl⟩ := exec_next_shape h
  exact ⟨List.length_set, fun n hn => List.getElem?_set_ne hn.symm, rfl, rfl, rfl⟩

/-! ### The four ways a command ends (R225, R226, R241) -/

/-- The command resolves CAP_STATE when it completes with OK (R225). -/
def resolvesCapability : Instr → Bool
  | .gfmul | .init _ _ _ => true
  | .encUpdate | .encFinal | .decUpdate | .decFinal | .abort => false

/-- The state with CAP_STATE resolved if `b`. -/
def State.resolvedIf (s : State) (b : Bool) : State := if b then s.resolveCapability else s

section
variable (s : State) (b : Bool)

@[simp] theorem State.resolvedIf_insts : (s.resolvedIf b).insts = s.insts := by cases b <;> simp [State.resolvedIf]
@[simp] theorem State.resolvedIf_plat : (s.resolvedIf b).plat = s.plat := by cases b <;> simp [State.resolvedIf]
@[simp] theorem State.resolvedIf_inbox : (s.resolvedIf b).inbox = s.inbox := by cases b <;> simp [State.resolvedIf]
@[simp] theorem State.resolvedIf_req : (s.resolvedIf b).req = s.req := by cases b <;> simp [State.resolvedIf]
@[simp] theorem State.resolvedIf_outbox : (s.resolvedIf b).outbox = s.outbox := by cases b <;> simp [State.resolvedIf]

theorem State.resolvedIf_capState : (s.resolvedIf b).capState =
    if b = true ∧ s.capState = .unprobed then s.plat.capability else s.capState := by
  cases b <;> simp [State.resolvedIf, State.resolveCapability_capState]

end

/-- How the command `i` ends in `s` with the addressed context `c`. -/
inductive Ends (i : Instr) (s : State) (c : Context) : State → Prop where
  /-- OK: a context is written, and CAP_STATE is resolved by GFMUL and INIT. -/
  | ok (d : Context) (out : Bytes) :
    Ends i s c (((s.resolvedIf (resolvesCapability i)).setCtx d).respond ⟨.ok, out, 0⟩)
  /-- An error that writes nothing. -/
  | kept (status : Status) (rlen : Count)
    (h : status ≠ .ok ∧ status ≠ .authFailure ∧ status ≠ .internalConsistency) :
    Ends i s c (s.respond ⟨status, [], rlen⟩)
  /-- AUTH_FAILURE. -/
  | released : Ends i s c ((s.setCtx Context.reset).respond ⟨.authFailure, [], 0⟩)
  /-- INTERNAL_CONSISTENCY. -/
  | faulted : Ends i s c ((s.setCtx { c with phase := .fault }).respond ⟨.internalConsistency, [], 0⟩)

/-- OK with the context found written back. -/
theorem Ends.ok_same {i : Instr} {s : State} {c : Context} (hc : s.ctx? = some c) (out : Bytes) :
    Ends i s c ((s.resolvedIf (resolvesCapability i)).respond ⟨.ok, out, 0⟩) := by
  have h := Ends.ok (i := i) (s := s) (c := c) c out
  rwa [State.setCtx_same (by simpa [State.ctx?_eq] using hc)] at h

theorem exec_ends {i : Instr} {s t : State} (h : exec i s = .next t) : ∃ c, s.ctx? = some c ∧ Ends i s c t := by
  cases i with
  | gfmul =>
    obtain ⟨c, hc, ⟨-, rfl⟩ | ⟨-, -, -, -, rfl⟩⟩ := execGfmul_next h
    · exact ⟨c, hc, .kept _ _ (by decide)⟩
    · exact ⟨c, hc, .ok_same hc _⟩
  | init mode dir tagBits =>
    obtain ⟨c, hc, ⟨-, rfl⟩ | ⟨-, rfl⟩ | ⟨-, -, rfl⟩ | ⟨-, -, -, -, -, -, -, rfl⟩⟩ := initWith_next h
    iterate 3 exact ⟨c, hc, .kept _ _ (by decide)⟩
    · exact ⟨c, hc, .ok _ _⟩
  | encUpdate =>
    obtain ⟨c, hc, ⟨-, rfl⟩ | ⟨-, -, -, db, -, -, ⟨-, rfl⟩ | ⟨-, rfl⟩ | ⟨-, -, key, cb, hk, y, -, -, -, -, rfl⟩⟩⟩ :=
      encUpdateWith_next h
    iterate 2 exact ⟨c, hc, .kept _ _ (by decide)⟩
    iterate 2 exact ⟨c, hc, .ok _ _⟩
  | encFinal =>
    obtain ⟨c, hc, ⟨-, rfl⟩ | ⟨-, -, mode, -, ⟨-, -, rfl⟩ | ⟨-, tagLen, -, ⟨-, rfl⟩ | ⟨-, out, rfl⟩⟩⟩⟩ :=
      encFinalWith_next h
    · exact ⟨c, hc, .kept _ _ (by decide)⟩
    · exact ⟨c, hc, .faulted⟩
    · exact ⟨c, hc, .kept _ _ (by decide)⟩
    · exact ⟨c, hc, .ok _ _⟩
  | decUpdate =>
    obtain ⟨c, hc, ⟨-, rfl⟩ | ⟨-, -, ⟨-, rfl⟩ | ⟨-, rfl⟩ | ⟨-, -, rfl⟩⟩⟩ := execDecUpdate_next h
    iterate 2 exact ⟨c, hc, .kept _ _ (by decide)⟩
    · exact ⟨c, hc, .ok_same hc _⟩
    · exact ⟨c, hc, .ok _ _⟩
  | decFinal =>
    obtain ⟨c, hc, ⟨-, rfl⟩ | ⟨-, -, tagLen, -, ⟨-, rfl⟩ | ⟨-, -, rfl⟩ | ⟨-, rfl⟩ |
      ⟨-, key, hk, y, j0, ab, out, -, -, -, -, -, -, rfl⟩⟩⟩ := decFinalWith_next h
    iterate 3 exact ⟨c, hc, .kept _ _ (by decide)⟩
    · exact ⟨c, hc, .released⟩
    · exact ⟨c, hc, .ok _ _⟩
  | abort =>
    obtain ⟨c, hc, rfl⟩ := execAbort_next h
    exact ⟨c, hc, .ok _ _⟩

/-- Settles O17, by the four ways a command ends. -/
theorem errorsArePrecise : Obligations.ErrorsArePrecise := by
  intro i s t r h ho herr
  obtain ⟨c, hc, hends⟩ := exec_ends h
  cases hends with
  | ok d out =>
    obtain rfl := State.respond_outbox_eq (State.resolvedIf_outbox ..) ho
    exact absurd rfl herr
  | kept status rlen hstatus =>
    obtain rfl := State.respond_outbox_eq rfl ho
    obtain ⟨-, hauth, hfault⟩ := hstatus
    exact ⟨rfl, rfl, fun e => absurd e hauth, fun e => absurd e hfault, fun _ _ => rfl⟩
  | released =>
    obtain rfl := State.respond_outbox_eq rfl ho
    exact ⟨rfl, rfl, fun _ => rfl, nofun, fun e => absurd rfl e⟩
  | faulted =>
    obtain rfl := State.respond_outbox_eq rfl ho
    exact ⟨rfl, rfl, nofun, fun _ => ⟨c, hc, rfl⟩, fun _ e => absurd rfl e⟩

/-- What R225 says of CAP_STATE after the command `i` answered `r` and left `t`. -/
def WritesCapabilityOnce (i : Instr) (s t : State) (r : Response) : Prop :=
  (s.capState ≠ .unprobed → t.capState = s.capState) ∧
  (r.status ≠ .ok → t.capState = s.capState) ∧
  (s.capState = .unprobed → r.status = .ok → (i = .gfmul ∨ ∃ m d tb, i = .init m d tb) →
    t.capState = if s.plat.accelPresent then .accel else .ref) ∧
  (i ≠ .gfmul → (∀ m d tb, i ≠ .init m d tb) → t.capState = s.capState)

theorem WritesCapabilityOnce.error {i : Instr} {s t : State} {r : Response} (ht : t.capState = s.capState)
    (hr : r.status ≠ .ok) : WritesCapabilityOnce i s t r :=
  ⟨fun _ => ht, fun _ => ht, fun _ hok => absurd hok hr, fun _ _ => ht⟩

theorem resolvesCapability_iff (i : Instr) :
    resolvesCapability i = true ↔ i = .gfmul ∨ ∃ m d tb, i = .init m d tb := by
  cases i <;> simp [resolvesCapability]

theorem WritesCapabilityOnce.ok {i : Instr} {s t : State} {out : Bytes}
    (ht : t.capState = (s.resolvedIf (resolvesCapability i)).capState) :
    WritesCapabilityOnce i s t ⟨.ok, out, 0⟩ := by
  rw [State.resolvedIf_capState] at ht
  refine ⟨fun hres => ?_, fun h => absurd rfl h, fun hun _ hi => ?_, fun hg hinit => ?_⟩
  · rw [ht, if_neg fun h => hres h.2]
  · rw [ht, if_pos ⟨(resolvesCapability_iff i).2 hi, hun⟩, Platform.capability]
  · refine ht.trans (if_neg fun h => ?_)
    rcases (resolvesCapability_iff i).1 h.1 with rfl | ⟨m, d, tb, rfl⟩
    · exact hg rfl
    · exact hinit m d tb rfl

/-- Settles O21: only the OK ending writes CAP_STATE. -/
theorem capabilityIsWrittenOnce : Obligations.CapabilityIsWrittenOnce := by
  intro i s t r h ho
  refine (?_ : WritesCapabilityOnce i s t r)
  obtain ⟨c, -, hends⟩ := exec_ends h
  cases hends with
  | ok d out =>
    obtain rfl := State.respond_outbox_eq (State.resolvedIf_outbox ..) ho
    exact .ok rfl
  | kept status rlen hstatus =>
    obtain rfl := State.respond_outbox_eq rfl ho
    exact .error rfl hstatus.1
  | released =>
    obtain rfl := State.respond_outbox_eq rfl ho
    exact .error rfl nofun
  | faulted =>
    obtain rfl := State.respond_outbox_eq rfl ho
    exact .error rfl nofun

/-! ### The binding of an ACTIVE context (R25, R35 c and d) -/

/-- `d` has the binding registers of `c`, on the decrypt path its stream registers too, on the encrypt path its
PT_BUF. -/
def Context.SameBinding (c d : Context) : Prop :=
  d.j0 = c.j0 ∧ d.h = c.h ∧ d.key = c.key ∧ d.mode = c.mode ∧ d.dir = c.dir ∧ d.tagLen = c.tagLen ∧
  d.aadBits = c.aadBits ∧
  (c.dir = some .dec → d.y = c.y ∧ d.cb = c.cb ∧ d.dataBits = c.dataBits ∧ d.rem = c.rem) ∧
  (c.dir = some .enc → d.ptBuf = c.ptBuf)

theorem Context.SameBinding.refl (c : Context) : c.SameBinding c :=
  ⟨rfl, rfl, rfl, rfl, rfl, rfl, rfl, fun _ => ⟨rfl, rfl, rfl, rfl⟩, fun _ => rfl⟩

theorem Context.SameBinding.stream {c : Context} (hd : c.dir = some .enc) (y cb : Option Block)
    (dataBits : Option Count) (rem : Bytes) :
    c.SameBinding { c with y := y, cb := cb, dataBits := dataBits, rem := rem } :=
  ⟨rfl, rfl, rfl, rfl, rfl, rfl, rfl, fun h => absurd (hd.symm.trans h) nofun, fun _ => rfl⟩

theorem Context.SameBinding.buffer {c : Context} (hd : c.dir = some .dec) (ptBuf : Bytes) :
    c.SameBinding { c with ptBuf := ptBuf } :=
  ⟨rfl, rfl, rfl, rfl, rfl, rfl, rfl, fun _ => ⟨rfl, rfl, rfl, rfl⟩, fun h => absurd (hd.symm.trans h) nofun⟩

/-- The addressed context of `t` has the binding of `c` if it is ACTIVE. -/
def KeepsBinding (c : Context) (t : State) : Prop := ∀ d, t.ctx? = some d → d.phase = .active → c.SameBinding d

section
variable {s t u : State} {c d : Context} {r : Response}

theorem KeepsBinding.kept (hu : u.ctx? = some c) : KeepsBinding c (u.respond r) := by
  intro d hd _
  obtain rfl := Option.some.inj (hu.symm.trans hd)
  exact .refl c

theorem KeepsBinding.written (hc : s.ctx? = some c) (h : d.phase = .active → c.SameBinding d) :
    KeepsBinding c ((s.setCtx d).respond r) := by
  intro d' hd' hp
  obtain rfl := Option.some.inj ((State.ctx?_setCtx hc d).symm.trans hd')
  exact h hp

variable (hc : s.ctx? = some c) (hp : c.phase = .active)
include hc

theorem execGfmul_keepsBinding (h : execGfmul s = .next t) : KeepsBinding c t := by
  obtain ⟨-, -, ⟨-, rfl⟩ | ⟨-, -, -, -, rfl⟩⟩ := execGfmul_next h
  · exact .kept hc
  · exact .kept (by simpa using hc)

include hp in
/-- INIT on an ACTIVE context is a SEQUENCE_ERROR. -/
theorem initWith_keepsBinding {E : Cipher} {mode : Mode} {dir : Dir} {tagBits : Nat}
    (h : initWith E mode dir tagBits s = .next t) : KeepsBinding c t := by
  rw [initWith_busy hc (by rw [hp]; decide)] at h
  cases h
  exact .kept hc

theorem encUpdateWith_keepsBinding {E : Cipher} (h : encUpdateWith E s = .next t) : KeepsBinding c t := by
  obtain ⟨c', hc', hcases⟩ := encUpdateWith_next h
  obtain rfl := Option.some.inj (hc.symm.trans hc')
  obtain ⟨-, rfl⟩ | ⟨-, hd, -, db, -, -, ⟨-, rfl⟩ | ⟨-, rfl⟩ | ⟨-, -, key, cb, hk, y, -, -, -, -, rfl⟩⟩ := hcases
  · exact .kept hc
  · exact .kept hc
  · exact .written hc fun _ => .stream hd ..
  · exact .written hc fun _ => .stream hd ..

theorem encFinalWith_keepsBinding {E : Cipher} (h : encFinalWith E s = .next t) : KeepsBinding c t := by
  obtain ⟨c', hc', hcases⟩ := encFinalWith_next h
  obtain rfl := Option.some.inj (hc.symm.trans hc')
  obtain ⟨-, rfl⟩ | ⟨-, -, mode, -, ⟨-, -, rfl⟩ | ⟨-, tagLen, -, ⟨-, rfl⟩ | ⟨-, out, rfl⟩⟩⟩ := hcases
  · exact .kept hc
  · exact .written hc nofun
  · exact .kept hc
  · exact .written hc nofun

theorem execDecUpdate_keepsBinding (h : execDecUpdate s = .next t) : KeepsBinding c t := by
  obtain ⟨c', hc', hcases⟩ := execDecUpdate_next h
  obtain rfl := Option.some.inj (hc.symm.trans hc')
  obtain ⟨-, rfl⟩ | ⟨-, hd, ⟨-, rfl⟩ | ⟨-, rfl⟩ | ⟨-, -, rfl⟩⟩ := hcases
  iterate 3 exact .kept hc
  · exact .written hc fun _ => .buffer hd _

theorem decFinalWith_keepsBinding {E : Cipher} (h : decFinalWith E s = .next t) : KeepsBinding c t := by
  obtain ⟨c', hc', hcases⟩ := decFinalWith_next h
  obtain rfl := Option.some.inj (hc.symm.trans hc')
  obtain ⟨-, rfl⟩ | ⟨-, -, tagLen, -, ⟨-, rfl⟩ | ⟨-, -, rfl⟩ | ⟨-, rfl⟩ |
    ⟨-, key, hk, y, j0, ab, out, -, -, -, -, -, -, rfl⟩⟩ := hcases
  iterate 3 exact .kept hc
  iterate 2 exact .written hc nofun

theorem execAbort_keepsBinding (h : execAbort s = .next t) : KeepsBinding c t := by
  obtain ⟨-, -, rfl⟩ := execAbort_next h
  exact .written hc nofun

end

/-- Settles O19, command by command: only ENC_UPDATE and DEC_UPDATE leave an ACTIVE context changed and ACTIVE. -/
theorem activeContextKeepsItsBinding : Obligations.ActiveContextKeepsItsBinding := by
  intro i s t c c' hc hp h hc' hp'
  refine (?_ : KeepsBinding c t) c' hc' hp'
  cases i with
  | gfmul => exact execGfmul_keepsBinding hc h
  | init mode dir tagBits => exact initWith_keepsBinding hc hp h
  | encUpdate => exact encUpdateWith_keepsBinding hc h
  | encFinal => exact encFinalWith_keepsBinding hc h
  | decUpdate => exact execDecUpdate_keepsBinding hc h
  | decFinal => exact decFinalWith_keepsBinding hc h
  | abort => exact execAbort_keepsBinding hc h

end Sys2Proof.Machine
end

section
/-! PROOFS. What a command's result depends on (spec/40_multiplier.md R104, 20_memory.md R57 and R62): the addressed
context, the operands and the draw, whether OUT is shifted, and PT_BUF_CAP. In two states that agree on those a command does
the same, whatever CAP_STATE, the in-place buffers and the other instances are. -/

namespace Sys2Proof.Machine

/-- The state after OK or an error that wrote `d`: CAP_STATE resolved if `b`, one more response. -/
def State.answered (s : State) (b : Bool) (d : Context) (r : Response) : State := ((s.resolvedIf b).setCtx d).respond r

section
variable (s : State) (b : Bool) (d : Context) (r : Response)

@[simp] theorem State.answered_insts : (s.answered b d r).insts = s.insts.set s.req.inst d := by simp [State.answered]
@[simp] theorem State.answered_plat : (s.answered b d r).plat = s.plat := by simp [State.answered]
@[simp] theorem State.answered_inbox : (s.answered b d r).inbox = s.inbox := by simp [State.answered]
@[simp] theorem State.answered_outbox : (s.answered b d r).outbox = s.outbox ++ [(s.req.inst, r)] := by
  simp [State.answered]

theorem State.answered_capState : (s.answered b d r).capState =
    if b = true ∧ s.capState = .unprobed then s.plat.capability else s.capState := s.resolvedIf_capState b

end

/-- All that a command's result depends on is the same in `s'` as in `s`. -/
structure State.SameRequest (s s' : State) : Prop where
  ctx : s'.ctx? = s.ctx?
  cmd : s'.req.cmd = s.req.cmd
  draw : s'.req.allocOk = s.req.allocOk
  bufCap : s'.plat.ptBufCap = s.plat.ptBufCap
  shiftedA : s'.shiftedA = s.shiftedA
  shiftedB : s'.shiftedB = s.shiftedB

/-- Two outcomes of one kind, for `s` and for `s'`: on a next state both wrote the same context, gave the same response,
and both or neither resolved the capability. -/
inductive Alike (s s' : State) : Result → Result → Prop where
  | next (b : Bool) (d : Context) (r : Response) : Alike s s' (.next (s.answered b d r)) (.next (s'.answered b d r))
  | fault (f : Fault) : Alike s s' (.fault f) (.fault f)
  | refused (q : Refusal) : Alike s s' (.refused q) (.refused q)

section
variable {s s' : State} (h : s.SameRequest s')
include h

theorem State.SameRequest.opA : s'.opA = s.opA := congrArg Command.a h.cmd

theorem State.SameRequest.opB : s'.opB = s.opB := congrArg Command.b h.cmd

theorem State.SameRequest.opKey : s'.opKey = s.opKey := congrArg Command.key h.cmd

theorem State.SameRequest.outcap : s'.outcap = s.outcap := congrArg (BitVec.toNat ∘ Command.outcap) h.cmd

theorem State.SameRequest.allocOk : s'.allocOk = s.allocOk := h.draw

theorem Alike.withCtx {k k' : Context → Result} (hk : ∀ c, s.ctx? = some c → Alike s s' (k c) (k' c)) :
    Alike s s' (s.withCtx k) (s'.withCtx k') := by
  cases hc : s.ctx? with
  | none =>
    rw [State.withCtx_none hc, State.withCtx_none (h.ctx.trans hc)]
    exact .refused _
  | some c =>
    rw [State.withCtx_some hc, State.withCtx_some (h.ctx.trans hc)]
    exact hk c hc

variable {c : Context} (hc : s.ctx? = some c)
include hc

/-- A response alone is one with the context found written back. -/
theorem Alike.respond (b : Bool) (r : Response) :
    Alike s s' (.next ((s.resolvedIf b).respond r)) (.next ((s'.resolvedIf b).respond r)) := by
  have hnext := Alike.next (s := s) (s' := s') b c r
  have hc' := h.ctx.trans hc
  rwa [State.answered, State.answered, State.setCtx_same (by simpa [State.ctx?_eq] using hc),
    State.setCtx_same (by simpa [State.ctx?_eq] using hc')] at hnext

theorem Alike.raise (status : Status) (rlen : Count) : Alike s s' (s.raise status rlen) (s'.raise status rlen) :=
  .respond h hc false _

end

section
variable {s s' : State}

theorem Alike.finish (d : Context) (out : Bytes) : Alike s s' (s.finish d out) (s'.finish d out) := .next false d _

theorem Alike.raiseWith (d : Context) (status : Status) : Alike s s' (s.raiseWith d status) (s'.raiseWith d status) :=
  .next false d _

theorem Alike.ite {p : Prop} [Decidable p] {a b a' b' : Result} (ha : Alike s s' a a') (hb : Alike s s' b b') :
    Alike s s' (if p then a else b) (if p then a' else b') := by
  split
  · exact ha
  · exact hb

theorem Alike.need {α : Type} {r : Reg} {v : Option α} {k k' : α → Result} (hk : ∀ a, Alike s s' (k a) (k' a)) :
    Alike s s' (need r v k) (need r v k') := by
  cases v with
  | none => exact .fault _
  | some a => exact hk a

variable (h : s.SameRequest s') {c : Context} (hc : s.ctx? = some c) {k k' : Result}
include h hc

theorem Alike.requireIdle (hk : Alike s s' k k') : Alike s s' (s.requireIdle c k) (s'.requireIdle c k') :=
  .ite hk (.raise h hc ..)

theorem Alike.requireActive (dir : Dir) (hk : Alike s s' k k') :
    Alike s s' (s.requireActive c dir k) (s'.requireActive c dir k') :=
  .ite (.need fun _ => .ite hk (.raise h hc ..)) (.raise h hc ..)

theorem Alike.requireStream (hk : Alike s s' k k') : Alike s s' (s.requireStream c k) (s'.requireStream c k') :=
  .requireActive h hc .enc (.need fun _ => .ite hk (.raise h hc ..))

end

/-! ### The commands -/

section
variable {s s' : State} (h : s.SameRequest s')
include h

theorem execGfmul_alike : Alike s s' (execGfmul s) (execGfmul s') := by
  unfold execGfmul
  rw [h.opA, h.opB, h.shiftedA, h.shiftedB]
  exact .withCtx h fun c hc => .ite (.raise h hc ..) <| .ite (.refused _) <| .respond h hc true _

theorem initWith_alike (E : Cipher) (mode : Mode) (dir : Dir) (tagBits : Nat) :
    Alike s s' (initWith E mode dir tagBits s) (initWith E mode dir tagBits s') := by
  unfold initWith
  rw [h.opA, h.opB, h.opKey, h.allocOk]
  exact .withCtx h fun c hc => .requireIdle h hc <| .ite (.raise h hc ..) <| .ite (.raise h hc ..) <|
    .ite (.raise h hc ..) <| .ite (.refused _) <| .ite (.raise h hc ..) <| .next true _ _

theorem encUpdateWith_alike (E : Cipher) : Alike s s' (encUpdateWith E s) (encUpdateWith E s') := by
  unfold encUpdateWith
  rw [h.opA, h.outcap, h.shiftedA]
  exact .withCtx h fun c hc => .requireStream h hc <| .need fun _ => .ite (.refused _) <| .ite (.raise h hc ..) <|
    .ite (.finish ..) <| .ite (.refused _) <| .need fun _ => .need fun _ => .need fun _ => .need fun _ => .finish ..

theorem encFinalWith_alike (E : Cipher) : Alike s s' (encFinalWith E s) (encFinalWith E s') := by
  unfold encFinalWith
  rw [h.outcap]
  exact .withCtx h fun c hc => .requireActive h hc _ <| .need fun _ => .ite (.raiseWith ..) <| .need fun _ =>
    .ite (.raise h hc ..) <| .need fun _ => .need fun _ => .need fun _ => .need fun _ => .need fun _ => .need fun _ =>
    .ite (.finish ..) <| .need fun _ => .finish ..

theorem execDecUpdate_alike : Alike s s' (execDecUpdate s) (execDecUpdate s') := by
  unfold execDecUpdate
  rw [h.opA, h.bufCap, h.allocOk]
  exact .withCtx h fun c hc => .requireActive h hc _ <| .ite (.finish ..) <| .ite (.refused _) <|
    .ite (.raise h hc ..) <| .finish ..

theorem decFinalWith_alike (E : Cipher) : Alike s s' (decFinalWith E s) (decFinalWith E s') := by
  unfold decFinalWith
  rw [h.outcap]
  exact .withCtx h fun c hc => .requireActive h hc _ <| .need fun _ => .ite (.raise h hc ..) <| .ite (.raise h hc ..) <|
    .need fun _ => .need fun _ => .need fun _ => .need fun _ => .need fun _ =>
    .ite (.raiseWith ..) <| .ite (.finish ..) <| .need fun _ => .finish ..

theorem execAbort_alike : Alike s s' (execAbort s) (execAbort s') := .withCtx h fun _ _ => .finish ..

theorem exec_alike (i : Instr) : Alike s s' (exec i s) (exec i s') := by
  cases i with
  | gfmul => exact execGfmul_alike h
  | init mode dir tagBits => exact initWith_alike h Config.E mode dir tagBits
  | encUpdate => exact encUpdateWith_alike h Config.E
  | encFinal => exact encFinalWith_alike h Config.E
  | decUpdate => exact execDecUpdate_alike h
  | decFinal => exact decFinalWith_alike h Config.E
  | abort => exact execAbort_alike h

theorem runCommand_alike : Alike s s' (runCommand s) (runCommand s') := by
  cases hdec : decode s.req.cmd.word with
  | ok i =>
    rw [runCommand_ok hdec, runCommand_ok (by rw [h.cmd]; exact hdec)]
    exact exec_alike h i
  | error e =>
    rw [runCommand_error hdec, runCommand_error (by rw [h.cmd]; exact hdec)]
    exact .withCtx h fun _ hc => .raise h hc ..

end

/-! ### CAP_STATE and in-place buffers (R57, R104) -/

theorem Alike.agree {s s' : State} {o o' : Result} (h : Alike s s' o o') (hinsts : s.insts = s'.insts)
    (houtbox : s.outbox = s'.outbox) (hinst : s.req.inst = s'.req.inst) : Agree o o' := by
  cases h with
  | next b d r => exact ⟨by simp [hinsts, hinst], by simp [houtbox, hinst]⟩
  | fault f => exact Agree.refl _
  | refused q => exact Agree.refl _

theorem exec_agree {s s' : State} (h : s.SameRequest s') (hinsts : s.insts = s'.insts) (houtbox : s.outbox = s'.outbox)
    (hinst : s.req.inst = s'.req.inst) (i : Instr) : Agree (exec i s) (exec i s') :=
  (exec_alike h i).agree hinsts houtbox hinst

/-- Settles O22: CAP_STATE and ACCEL_PRESENT are none of what a command's result depends on. -/
theorem capabilityNeverChangesAResult : Obligations.CapabilityNeverChangesAResult := by
  intro i s cap present
  apply exec_agree
  case h => exact ⟨rfl, rfl, rfl, rfl, rfl, rfl⟩
  all_goals rfl

/-- Settles O23: a command asks only whether OUT is shifted, which it is in neither case. -/
theorem inPlaceChangesNothing : Obligations.InPlaceChangesNothing := by
  intro i s
  constructor
  all_goals
    apply exec_agree
    case h => exact ⟨rfl, rfl, rfl, rfl, rfl, rfl⟩
    all_goals rfl

/-! ### Two instances (R62) -/

section
variable {s s' t u : State}

theorem State.SameRequest.refl (s : State) : s.SameRequest s := ⟨rfl, rfl, rfl, rfl, rfl, rfl⟩

theorem State.SameRequest.symm (h : s.SameRequest s') : s'.SameRequest s :=
  ⟨h.ctx.symm, h.cmd.symm, h.draw.symm, h.bufCap.symm, h.shiftedA.symm, h.shiftedB.symm⟩

/-- A request finds in `u` what it finds in `s` when its instance and the parameters are the same there. -/
theorem State.SameRequest.accept {r : Request} (hinst : u.insts[r.inst]? = s.insts[r.inst]?) (hplat : u.plat = s.plat)
    (in1 in2 : List HostEvent) : (s.accept r in1).SameRequest (u.accept r in2) :=
  ⟨hinst, rfl, rfl, congrArg Platform.ptBufCap hplat, rfl, rfl⟩

theorem Alike.next_left {o o' : Result} (h : Alike s s' o o') (ho : o = .next t) :
    ∃ b d r, t = s.answered b d r ∧ o' = .next (s'.answered b d r) := by
  cases h with
  | next b d r => exact ⟨b, d, r, (Host.Outcome.next.inj ho).symm, rfl⟩
  | fault f => cases ho
  | refused q => cases ho

/-- A command leaves every other instance and the parameters alone (R62). -/
theorem runCommand_frame (h : runCommand s = .next t) :
    t.plat = s.plat ∧ ∀ n, n ≠ s.req.inst → t.insts[n]? = s.insts[n]? := by
  obtain ⟨b, d, r, rfl, -⟩ := (runCommand_alike (.refl s)).next_left h
  exact ⟨State.answered_plat .., fun n hn => by rw [State.answered_insts, List.getElem?_set_ne hn.symm]⟩

theorem State.responsesOf_answered (s : State) (b : Bool) (d : Context) (r : Response) (n : Nat) :
    (s.answered b d r).responsesOf n = s.responsesOf n ++ if s.req.inst = n then [r] else [] := by
  rw [State.responsesOf, State.answered_outbox, List.filter_append, List.map_append, State.responsesOf]
  congr 1
  by_cases h : s.req.inst = n <;> simp [h]

/-- The two requests taken and answered in the order `r1`, `r2`. -/
def State.answeredTwice (s : State) (r1 r2 : Request) (rest : List HostEvent) (b1 b2 : Bool) (d1 d2 : Context)
    (q1 q2 : Response) : State :=
  (((s.accept r1 (.command r2 :: rest)).answered b1 d1 q1).accept r2 rest).answered b2 d2 q2

/-- In the other order the machine is the same, but for the order of responses of different instances. -/
theorem State.answeredTwice_comm (s : State) {r1 r2 : Request} (hne : r1.inst ≠ r2.inst) (rest : List HostEvent)
    (b1 b2 : Bool) (d1 d2 : Context) (q1 q2 : Response) :
    let t := s.answeredTwice r1 r2 rest b1 b2 d1 d2 q1 q2
    let u := s.answeredTwice r2 r1 rest b2 b1 d2 d1 q2 q1
    u.insts = t.insts ∧ u.capState = t.capState ∧ u.plat = t.plat ∧ u.inbox = t.inbox ∧
      ∀ n, u.responsesOf n = t.responsesOf n := by
  refine ⟨?_, ?_, ?_, ?_, fun n => ?_⟩
  · simpa [State.answeredTwice] using List.set_comm _ _ hne.symm
  · have hcap := s.plat.capability_ne_unprobed
    by_cases hun : s.capState = .unprobed
    · cases b1 <;> cases b2 <;> simp [State.answeredTwice, State.answered_capState, hun, hcap]
    · simp [State.answeredTwice, State.answered_capState, hun]
  · simp [State.answeredTwice]
  · simp [State.answeredTwice]
  · have hold (r : Request) (q : State) (es : List HostEvent) : (q.accept r es).responsesOf n = q.responsesOf n := rfl
    by_cases h1 : r1.inst = n
    · have h2 : r2.inst ≠ n := fun h2 => hne (h1.trans h2.symm)
      simp [State.answeredTwice, State.responsesOf_answered, hold, h1, h2]
    · by_cases h2 : r2.inst = n
      · simp [State.answeredTwice, State.responsesOf_answered, hold, h1, h2]
      · simp [State.answeredTwice, State.responsesOf_answered, hold, h1, h2]

end

theorem run_succ_next (M : Host.Core) {s t : M.State} {k : Nat} :
    M.run (k + 1) s = .next t ↔ ∃ s1, M.step s = .next s1 ∧ M.run k s1 = .next t := by
  rw [Host.Core.run]
  cases M.step s with
  | next s1 => simp
  | fault f => simp
  | refused q => simp

theorem run_two {s t : State} : Sys2Proof.core.run 2 s = .next t ↔ ∃ s1, step s = .next s1 ∧ step s1 = .next t := by
  refine (run_succ_next Sys2Proof.core).trans (exists_congr fun s1 => and_congr_right fun _ => ?_)
  refine (run_succ_next Sys2Proof.core).trans ⟨?_, fun h => ⟨t, h, rfl⟩⟩
  rintro ⟨s2, h, hend⟩
  exact h.trans hend

/-- Settles O24: each request runs alike whether it is taken first or after the other (`runCommand_alike`), and the two
orders of the two answers leave the same machine. -/
theorem instancesCommute : Obligations.InstancesCommute := by
  intro s t r1 r2 rest hne h
  obtain ⟨s1, h1, h2⟩ := run_two.1 h
  have h1 : runCommand (s.accept r1 (.command r2 :: rest)) = .next s1 :=
    (step_command (s := { s with inbox := .command r1 :: .command r2 :: rest }) rfl).symm.trans h1
  obtain ⟨hplat, hothers⟩ := runCommand_frame h1
  have hin : s1.inbox = .command r2 :: rest := by
    obtain ⟨b, d, r, rfl, -⟩ := (runCommand_alike (.refl _)).next_left h1
    exact State.answered_inbox ..
  have h2 : runCommand (s1.accept r2 rest) = .next t := (step_command hin).symm.trans h2
  have hlater : (s1.accept r2 rest).SameRequest (s.accept r2 (.command r1 :: rest)) :=
    (State.SameRequest.accept (hothers _ hne.symm) hplat _ _).symm
  obtain ⟨b2, d2, q2, rfl, hfirst⟩ := (runCommand_alike hlater).next_left h2
  obtain ⟨hplat', hothers'⟩ := runCommand_frame hfirst
  obtain ⟨b1, d1, q1, rfl, hsecond⟩ :=
    (runCommand_alike (State.SameRequest.accept (s := s) (hothers' _ hne) hplat' _ rest)).next_left h1
  have hswapped : step { s with inbox := .command r2 :: .command r1 :: rest } = _ := (step_command rfl).trans hfirst
  exact ⟨s.answeredTwice r2 r1 rest b2 b1 d2 d1 q2 q1,
    run_two.2 ⟨_, hswapped, (step_command (State.answered_inbox ..)).trans hsecond⟩,
    s.answeredTwice_comm hne rest b1 b2 d1 d2 q1 q2⟩

end Sys2Proof.Machine
end

section
/-! PROOFS. The pseudo-commands (spec/30_encoding.md R83, 43_encrypt.md R172, 44_decrypt.md R198, R199). Each of their
commands is one step on the request issued; the registers INIT leaves are followed through the commands after it. The tag
both paths compute is one function of those registers and the ciphertext, in whatever pieces the ciphertext came. -/

namespace Sys2Proof.Machine

/-! ### The tag and the keystream of a whole data stream (R165, R172, R193, R198) -/

/-- The tag of a ciphertext that goes on from the AAD and data hashed so far (R165, R193). -/
def Live.tagOf (E : Cipher) (v : Live) (ct : Bytes) : Bytes :=
  gcmTag E v.key v.h v.j0 (ghashString v.h v.y ct) v.aadBits (v.dataBits + BitVec.ofNat 64 (8 * ct.length))
    v.tagLen.toNat

theorem pad16_append {s : Bytes} (hs : s.length % 16 = 0) (u : Bytes) : pad16 (s ++ u) = s ++ pad16 u := by
  rw [pad16, List.length_append, Nat.add_mod, hs, Nat.zero_add, Nat.mod_mod, List.append_assoc, pad16]

/-- Hashing goes on from whole blocks already folded (R123, R127). -/
theorem ghashString_append (h y : Block) {s : Bytes} (hs : s.length % 16 = 0) (u : Bytes) :
    ghashString h (accumulateMany h y s) u = ghashString h y (s ++ u) := by
  rw [ghashString, ghashString, pad16_append hs, accumulateMany_append h y s _ hs]

theorem ctrXor_ctrXor (E : Cipher) (key : KeySched) (cb : Block) (s : Bytes) :
    ctrXor E key cb (ctrXor E key cb s) = s := by
  refine List.ext_getElem (by rw [ctrXor_length, ctrXor_length]) fun j h1 h2 => ?_
  simp only [ctrXor, List.getElem_mapIdx]
  rw [BitVec.xor_assoc, BitVec.xor_self, BitVec.xor_zero]

section
variable (E : Cipher) (v : Live) (data : Bytes)

/-- The ciphertext of the whole blocks, and then of the rest from the registers they leave. -/
theorem ctrXor_blocks : ctrXor E v.key v.cb (wholeBlocks data) ++
    ctrXor E v.key (v.encrypted E data).cb (partialBlock data) = ctrXor E v.key v.cb data := by
  have happ := ctrXor_append E v.key v.cb (wholeBlocks_length data) (partialBlock data)
  rw [wholeBlocks_append_partialBlock] at happ
  exact happ.symm

/-- The tag after ENC_UPDATE over the rest is the tag before it over the whole ciphertext. -/
theorem Live.tagOf_encrypted :
    (v.encrypted E data).tagOf E (ctrXor E v.key (v.encrypted E data).cb (partialBlock data)) =
      v.tagOf E (ctrXor E v.key v.cb data) := by
  have hblocks : (ctrXor E v.key v.cb (wholeBlocks data)).length % 16 = 0 := by
    rw [ctrXor_length, wholeBlocks_length]
    omega
  have hhash : ghashString v.h (v.encrypted E data).y (ctrXor E v.key (v.encrypted E data).cb (partialBlock data)) =
      ghashString v.h v.y (ctrXor E v.key v.cb data) := by
    rw [← ctrXor_blocks E v data]
    exact ghashString_append v.h v.y hblocks _
  have hbits : (v.encrypted E data).dataBits +
      BitVec.ofNat 64 (8 * (ctrXor E v.key (v.encrypted E data).cb (partialBlock data)).length) =
      v.dataBits + BitVec.ofNat 64 (8 * (ctrXor E v.key v.cb data).length) := by
    rw [ctrXor_length, ctrXor_length, partialBlock_length, Live.encrypted, BitVec.add_assoc, ← BitVec.ofNat_add,
      show 128 * (data.length / 16) + 8 * (data.length % 16) = 8 * data.length by omega]
  rw [Live.tagOf, hbits]
  exact congrArg (gcmTag E v.key v.h v.j0 · v.aadBits _ v.tagLen.toNat) hhash

/-- What ENC_UPDATE and then ENC_FINAL emit is the ciphertext and tag of the whole data. -/
theorem sealed_bytes : ctrXor E v.key v.cb (wholeBlocks data) ++
    (ctrXor E v.key (v.encrypted E data).cb (partialBlock data) ++
      (v.encrypted E data).tagOf E (ctrXor E v.key (v.encrypted E data).cb (partialBlock data))) =
    ctrXor E v.key v.cb data ++ v.tagOf E (ctrXor E v.key v.cb data) := by
  rw [← List.append_assoc, ctrXor_blocks, Live.tagOf_encrypted]

theorem Live.tagOf_length (h : v.tagLen.toNat ≤ 16) : (v.tagOf E data).length = v.tagLen.toNat :=
  gcmTag_length E v.key v.h v.j0 _ v.aadBits _ h

end

/-- From the registers INIT leaves, the tag is GCM's one-shot formula, whatever MODE and DIR (R172). -/
theorem Live.tagOf_started (E : Cipher) (mode : Mode) (dir : Dir) {tagBits : Nat}
    (htag : tagBits ∈ [32, 64, 96, 104, 112, 120, 128]) (key : KeySched) (iv aad ct : Bytes) :
    (Live.started E mode dir tagBits key iv aad).tagOf E ct = gcmTagOf E key iv aad ct (tagBits / 8) := by
  rw [Live.tagOf, gcmTag_ghashString, gcmTagOf, List.append_assoc,
    accumulateMany_append _ _ _ _ (pad16_length_mod aad)]
  have hbits : (0 : Count) + BitVec.ofNat 64 (8 * ct.length) = BitVec.ofNat 64 (8 * ct.length) := BitVec.zero_add _
  simp only [Live.started, tagLenOf_toNat htag, initJ0_eq_gcmJ0, hbits, ghashString]

/-! ### Issuing one command (R83) -/

theorem lastResponse_respond (s : State) (r : Response) : lastResponse (s.respond r) = r := by
  rw [lastResponse, State.respond_outbox, List.getLast?_concat]

/-- `t` is `s` but for the context `d` of instance `n`, CAP_STATE and the channel. -/
structure State.Wrote (s : State) (n : Nat) (d : Context) (t : State) : Prop where
  insts : t.insts = s.insts.set n d
  plat : t.plat = s.plat

theorem State.Wrote.trans {s t u : State} {n : Nat} {d e : Context} (h : s.Wrote n d t) (h' : t.Wrote n e u) :
    s.Wrote n e u :=
  ⟨by rw [h'.insts, h.insts, List.set_set], h'.plat.trans h.plat⟩

theorem State.Wrote.ctx {s t : State} {n : Nat} {c d : Context} (h : s.Wrote n d t) (hc : s.insts[n]? = some c) :
    t.insts[n]? = some d := by
  obtain ⟨hlt, -⟩ := List.getElem?_eq_some_iff.1 hc
  rw [h.insts, List.getElem?_set_self hlt]

section
variable {s : State} {r : Request} {i : Instr} (hw : decode r.cmd.word = .ok i)
include hw

theorem step_issued {u : State} {q : Response} (h : exec i { s with req := r } = .next (u.respond q)) :
    step { s with inbox := .command r :: s.inbox } = .next (u.respond q) :=
  (step_command rfl).trans ((runCommand_ok hw).trans h)

/-- The last command of a sequence: its response is the answer, whatever its STATUS. -/
theorem issue_last {u : State} {q : Response} (h : exec i { s with req := r } = .next (u.respond q)) :
    issue s r (fun t q => .next (t, q)) = .next (u.respond q, q) := by
  rw [issue, step_issued hw h]
  simp only [lastResponse_respond, ite_self]

/-- A command that finishes, INIT after resolving the capability: the sequence goes on. -/
theorem issue_finish {d : Context} {out : Bytes} (b : Bool)
    (h : exec i { s with req := r } = (State.resolvedIf { s with req := r } b).finish d out) :
    ∃ t, s.Wrote r.inst d t ∧ ∀ k, issue s r k = k t ⟨.ok, out, 0⟩ := by
  refine ⟨((State.resolvedIf { s with req := r } b).setCtx d).respond ⟨.ok, out, 0⟩, ⟨by simp, by simp⟩, fun k => ?_⟩
  rw [issue, step_issued hw h]
  simp only [lastResponse_respond, if_true]

end

/-! ### The commands of the sequences -/

/-- What INIT asks of a pseudo-command's arguments and of the instance they name (R141, R148, R58). -/
structure PseudoArgs.Legal (p : PseudoArgs) (s : State) : Prop where
  idle : ∃ c, s.insts[p.inst]? = some c ∧ c.phase = .idle
  tag : p.tagBits ∈ [32, 64, 96, 104, 112, 120, 128]
  iv : p.iv ≠ []
  ivFits : 8 * p.iv.length ≤ Config.lenLimitBits
  aadFits : 8 * p.aad.length ≤ Config.lenLimitBits
  draw : p.initDraw = true

/-- The registers the INIT of a pseudo-command leaves. -/
def PseudoArgs.live (p : PseudoArgs) (mode : Mode) (dir : Dir) : Live :=
  Live.started Config.E mode dir p.tagBits p.key p.iv p.aad

section
variable {p : PseudoArgs} {s : State}

theorem PseudoArgs.Legal.tagLen (h : p.Legal s) (mode : Mode) (dir : Dir) :
    (p.live mode dir).tagLen.toNat = p.tagBits / 8 := tagLenOf_toNat h.tag

theorem PseudoArgs.Legal.tagBytes_le (h : p.Legal s) : p.tagBits / 8 ≤ 16 := by
  have hlegal := h.tag
  simp only [List.mem_cons, List.not_mem_nil, or_false] at hlegal
  omega

theorem PseudoArgs.Legal.wf (h : p.Legal s) (mode : Mode) (dir : Dir) : (Instr.init mode dir p.tagBits).wf = true := by
  have hle := h.tagBytes_le
  exact decide_eq_true (by omega)

theorem issue_init (h : p.Legal s) {mode : Mode} {dir : Dir} (hmd : ¬ (mode = .gmac ∧ dir = .dec)) :
    ∃ t, s.Wrote p.inst ((p.live mode dir).context [] []) t ∧
      ∀ k, issue s (p.initRequest mode dir) k = k t ⟨.ok, [], 0⟩ := by
  obtain ⟨c, hc, hp⟩ := h.idle
  refine issue_finish (s := s) (r := p.initRequest mode dir)
    (encodeThenDecodeReturnsTheCommand _ (h.wf mode dir)) true ?_
  exact (initWith_checked (s := { s with req := p.initRequest mode dir }) hc hp h.tag h.iv hmd h.ivFits h.aadFits).trans
    (if_neg (ne_false_of_eq_true h.draw))

variable {v : Live} {rem ptBuf : Bytes} {cap : Count} (hc : s.insts[p.inst]? = some (v.context rem ptBuf))
include hc

theorem issue_encUpdate (hd : v.dir = .enc) (hm : v.mode = .gcm) {data : Bytes}
    (hlimit : v.dataBits.toNat + 8 * (rem ++ data).length ≤ Config.lenLimitBits)
    (hcap : 16 * ((rem ++ data).length / 16) ≤ cap.toNat) (hplaced : p.overlapA ≠ .shifted) :
    ∃ t, s.Wrote p.inst ((v.encrypted Config.E (rem ++ data)).context (partialBlock (rem ++ data)) ptBuf) t ∧
      ∀ k, issue s (p.request .encUpdate data cap) k =
        k t ⟨.ok, ctrXor Config.E v.key v.cb (wholeBlocks (rem ++ data)), 0⟩ :=
  issue_finish (s := s) (r := p.request .encUpdate data cap) (encodeThenDecodeReturnsTheCommand .encUpdate rfl) false
    (encUpdateWith_fits (s := { s with req := p.request .encUpdate data cap }) Config.E hc hd hm hlimit hcap
      fun h => absurd h hplaced)

theorem issue_encFinal (hd : v.dir = .enc) (hgmac : v.mode = .gmac → rem = []) (hrem : rem.length < 16)
    (hcap : rem.length + v.tagLen.toNat ≤ cap.toNat) :
    ∃ t, s.Wrote p.inst Context.reset t ∧ ∀ k, issue s (p.request .encFinal [] cap) k =
      k t ⟨.ok, ctrXor Config.E v.key v.cb rem ++ v.tagOf Config.E (ctrXor Config.E v.key v.cb rem), 0⟩ := by
  refine issue_finish (s := s) (r := p.request .encFinal [] cap) (encodeThenDecodeReturnsTheCommand .encFinal rfl)
    false ?_
  rw [Live.tagOf, ctrXor_length]
  exact encFinalWith_fits (s := { s with req := p.request .encFinal [] cap }) Config.E hc hd hgmac hrem hcap

theorem issue_decUpdate (hd : v.dir = .dec) {data : Bytes}
    (hlimit : 8 * (ptBuf.length + data.length) ≤ Config.lenLimitBits)
    (hbuf : ptBuf.length + data.length ≤ s.plat.ptBufCap) (hdraw : p.updateDraw = true) :
    ∃ t, s.Wrote p.inst (v.context rem (ptBuf ++ data)) t ∧
      ∀ k, issue s (p.request .decUpdate data cap) k = k t ⟨.ok, [], 0⟩ :=
  issue_finish (s := s) (r := p.request .decUpdate data cap) (encodeThenDecodeReturnsTheCommand .decUpdate rfl) false
    (decUpdateAppends { s with req := p.request .decUpdate data cap } v rem ptBuf hc hd hlimit hbuf hdraw)

end

/-- DEC_FINAL before any data was counted: its tag is `Live.tagOf` of the ciphertext in PT_BUF. -/
theorem execDecFinal_run {s : State} {v : Live} {rem ct tag : Bytes} (hc : s.ctx? = some (v.context rem (ct ++ tag)))
    (hd : v.dir = .dec) (hbits : v.dataBits = 0) (htag : tag.length = v.tagLen.toNat) (hlen : v.tagLen.toNat ≤ 16)
    (hcap : ct.length ≤ s.outcap) : exec .decFinal s =
      if v.tagOf Config.E ct = tag then s.finish Context.reset (ctrXor Config.E v.key v.cb ct)
      else s.raiseWith Context.reset .authFailure := by
  have hcount : v.dataBits + BitVec.ofNat 64 (8 * ct.length) = BitVec.ofNat 64 (8 * ct.length) := by
    rw [hbits]
    exact BitVec.zero_add _
  have hequal := tagsEqual_true ((v.tagOf_length Config.E ct hlen).trans htag.symm)
  rw [Live.tagOf, hcount] at hequal ⊢
  refine (decFinalWith_run hc hd htag hcap).trans ?_
  simp only [hequal]

/-! ### GCM_SEAL (R172) -/

/-- GCM_SEAL emits the ciphertext and tag of the registers its INIT leaves. -/
theorem gcmSeal_run {p : PseudoArgs} {s : State} (h : p.Legal s) (hdata : 8 * p.data.length ≤ Config.lenLimitBits)
    (hplaced : p.overlapA ≠ .shifted) (hcap : p.data.length + p.tagBits / 8 ≤ p.cap.toNat) :
    ∃ t, s.Wrote p.inst Context.reset t ∧ gcmSeal p s = .next (t, ⟨.ok,
      ctrXor Config.E p.key (p.live .gcm .enc).cb p.data ++
        (p.live .gcm .enc).tagOf Config.E (ctrXor Config.E p.key (p.live .gcm .enc).cb p.data), 0⟩) := by
  obtain ⟨c, hc, -⟩ := h.idle
  have htag := h.tagLen .gcm .enc
  have hpart := partialBlock_length p.data
  obtain ⟨s1, hw1, h1⟩ := issue_init h (mode := .gcm) (dir := .enc) (by decide)
  obtain ⟨s2, hw2, h2⟩ := issue_encUpdate (cap := p.cap) (hw1.ctx hc) rfl rfl (data := p.data)
    (show 0 + 8 * p.data.length ≤ _ by omega) (show 16 * (p.data.length / 16) ≤ _ by omega) hplaced
  simp only [List.nil_append] at hw2 h2
  have hroom : (p.cap - BitVec.ofNat 64 (16 * (p.data.length / 16))).toNat =
      p.cap.toNat - 16 * (p.data.length / 16) := by
    have hlt := p.cap.isLt
    rw [BitVec.toNat_sub_of_le (by rw [BitVec.le_def, BitVec.toNat_ofNat]; omega), BitVec.toNat_ofNat]
    omega
  obtain ⟨s3, hw3, h3⟩ := issue_encFinal (cap := p.cap - BitVec.ofNat 64 (16 * (p.data.length / 16)))
    ((hw1.trans hw2).ctx hc) rfl nofun (by omega)
    (show (partialBlock p.data).length + (p.live .gcm .enc).tagLen.toNat ≤ _ by omega)
  refine ⟨s3, (hw1.trans hw2).trans hw3, ?_⟩
  rw [gcmSeal, h1, h2]
  dsimp only
  rw [ctrXor_length, wholeBlocks_length, h3]
  exact congrArg (fun out => Host.Outcome.next (s3, Response.mk .ok out 0))
    (sealed_bytes Config.E (p.live .gcm .enc) p.data)

/-- Settles O58: `gcmSeal_run`, with the registers after INIT written as GCM's formula. -/
theorem sealIsGcm : Obligations.SealIsGcm := by
  intro p s c hc hp htag hiv hivFits haad hdata hdraw hplaced hcap
  obtain ⟨t, hw, hrun⟩ := gcmSeal_run ⟨⟨c, hc, hp⟩, htag, hiv, hivFits, haad, hdraw⟩ hdata hplaced hcap
  refine ⟨t, hrun.trans ?_, hw.insts⟩
  have hcb : (p.live .gcm .enc).cb = gcmJ0 (Config.E p.key 0) p.iv := initJ0_eq_gcmJ0 ..
  rw [hcb, PseudoArgs.live, Live.tagOf_started _ _ _ htag, gcmCiphertext]

/-! ### GCM_OPEN and GMAC_VERIFY (R198, R199) -/

section
variable {p : PseudoArgs} {s : State} (h : p.Legal s) (hdata : 8 * p.data.length ≤ Config.lenLimitBits)
  (hbuf : p.data.length ≤ s.plat.ptBufCap) (hdraw : p.updateDraw = true)
include h hdata hbuf hdraw

/-- GCM_OPEN comes to its DEC_FINAL with all the data in PT_BUF, and the response of that DEC_FINAL is its own. -/
theorem gcmOpen_run {q : Response}
    (hfinal : ∀ t : State, t.ctx? = some ((p.live .gcm .dec).context [] p.data) → t.outcap = p.cap.toNat →
      ∃ u : State, exec .decFinal t = .next (u.respond q)) :
    ∃ u, gcmOpen p s = .next (u, q) := by
  obtain ⟨c, hc, -⟩ := h.idle
  obtain ⟨s1, hw1, h1⟩ := issue_init h (mode := .gcm) (dir := .dec) (by decide)
  obtain ⟨s2, hw2, h2⟩ := issue_decUpdate (cap := 0) (hw1.ctx hc) rfl (data := p.data) (by simpa using hdata)
    (by simpa [hw1.plat] using hbuf) hdraw
  obtain ⟨u, hu⟩ := hfinal { s2 with req := p.request .decFinal [] p.cap } ((hw1.trans hw2).ctx hc) rfl
  refine ⟨u.respond q, ?_⟩
  rw [gcmOpen, h1, h2]
  exact issue_last (encodeThenDecodeReturnsTheCommand .decFinal rfl) hu

/-- With room for the plaintext the comparison of the last TAG_LEN bytes decides. -/
theorem gcmOpen_compared {ct tag : Bytes} (hsplit : p.data = ct ++ tag) (htag : tag.length = p.tagBits / 8)
    (hcap : ct.length ≤ p.cap.toNat) : ∃ u, gcmOpen p s = .next (u,
      if (p.live .gcm .dec).tagOf Config.E ct = tag then ⟨.ok, ctrXor Config.E p.key (p.live .gcm .dec).cb ct, 0⟩
      else ⟨.authFailure, [], 0⟩) := by
  have hlen := h.tagLen .gcm .dec
  refine gcmOpen_run h hdata hbuf hdraw fun t hc hout => ⟨t.setCtx Context.reset, ?_⟩
  rw [hsplit] at hc
  rw [execDecFinal_run hc rfl rfl (htag.trans hlen.symm) (hlen.trans_le h.tagBytes_le) (hcap.trans_eq hout.symm)]
  split
  · rfl
  · rfl

theorem gcmOpen_tooShort (hlt : p.data.length < p.tagBits / 8) :
    ∃ u, gcmOpen p s = .next (u, ⟨.dataLenRange, [], 0⟩) := by
  refine gcmOpen_run h hdata hbuf hdraw fun t hc _ => ⟨t, ?_⟩
  obtain ⟨rest, hchecks⟩ := decFinalWith_checksFirst hc rfl Config.E
  exact hchecks.trans (if_pos (hlt.trans_eq (h.tagLen .gcm .dec).symm))

theorem gcmOpen_noSpace (hle : p.tagBits / 8 ≤ p.data.length) (hcap : p.cap.toNat < p.data.length - p.tagBits / 8) :
    ∃ u, gcmOpen p s = .next (u, ⟨.lengthRange, [], rlenOf (p.data.length - p.tagBits / 8)⟩) := by
  refine gcmOpen_run h hdata hbuf hdraw fun t hc hout => ⟨t, ?_⟩
  obtain ⟨rest, hchecks⟩ := decFinalWith_checksFirst hc rfl Config.E
  rw [h.tagLen, hout, if_neg hle.not_gt, if_pos hcap] at hchecks
  exact hchecks

end

/-- Settles O59: GCM_OPEN starts from the registers of GCM_SEAL but for DIR, so its DEC_FINAL computes the tag it finds
at the end of PT_BUF, and the keystream taken twice is nothing. -/
theorem openReturnsWhatSealSealed : Obligations.OpenReturnsWhatSealSealed := by
  intro p s c hc hp htag hiv hivFits haad hdata hbuf hdraw hupdate hplaced hcap
  have hlegal : p.Legal s := ⟨⟨c, hc, hp⟩, htag, hiv, hivFits, haad, hdraw⟩
  obtain ⟨t, hw, hseal⟩ := gcmSeal_run hlegal (by omega) hplaced hcap
  have hctLen := ctrXor_length Config.E p.key (p.live .gcm .enc).cb p.data
  have hplain := ctrXor_ctrXor Config.E p.key (p.live .gcm .enc).cb p.data
  generalize ctrXor Config.E p.key (p.live .gcm .enc).cb p.data = ct at hseal hctLen hplain
  have hbytes := hlegal.tagBytes_le
  have htagLen := Live.tagOf_length Config.E (p.live .gcm .enc) ct ((hlegal.tagLen .gcm .enc).trans_le hbytes)
  rw [hlegal.tagLen] at htagLen
  generalize htagOf : (p.live .gcm .enc).tagOf Config.E ct = tag at hseal htagLen
  obtain ⟨u, hopen⟩ := gcmOpen_compared (s := t) (p := { p with data := ct ++ tag })
    ⟨⟨_, hw.ctx hc, rfl⟩, htag, hiv, hivFits, haad, hdraw⟩ (by rw [List.length_append]; omega)
    (by rw [List.length_append, hw.plat]; omega) hupdate rfl htagLen (show ct.length ≤ p.cap.toNat by omega)
  refine ⟨t, u, _, hseal, rfl, hopen.trans (congrArg (fun q => Host.Outcome.next (u, q)) ((if_pos htagOf).trans ?_))⟩
  exact congrArg (Response.mk .ok · 0) hplain

/-- What R199 answers a received string when the tag is `tag`. -/
def gmacVerifyResponse (tagLen : Nat) (received tag : Bytes) : Response :=
  if received.length < tagLen then ⟨.dataLenRange, [], 0⟩
  else if tagLen < received.length then ⟨.lengthRange, [], BitVec.ofNat 64 (received.length - tagLen)⟩
  else if received = tag then ⟨.ok, [], 0⟩
  else ⟨.authFailure, [], 0⟩

/-- GMAC_VERIFY has no output space, so a longer string than a tag fails the second length check. -/
theorem gmacVerify_run {p : PseudoArgs} {s : State} (h : p.Legal s) (hdata : 8 * p.data.length ≤ Config.lenLimitBits)
    (hbuf : p.data.length ≤ s.plat.ptBufCap) (hdraw : p.updateDraw = true) : ∃ u, gmacVerify p s =
      .next (u, gmacVerifyResponse (p.tagBits / 8) p.data ((p.live .gcm .dec).tagOf Config.E [])) := by
  have hlegal : PseudoArgs.Legal { p with cap := 0 } s := ⟨h.idle, h.tag, h.iv, h.ivFits, h.aadFits, h.draw⟩
  unfold gmacVerifyResponse
  split
  · exact gcmOpen_tooShort hlegal hdata hbuf hdraw ‹_›
  split
  · exact gcmOpen_noSpace hlegal hdata hbuf hdraw (Nat.le_of_not_lt ‹_›) (Nat.sub_pos_of_lt ‹_›)
  · obtain ⟨u, hu⟩ := gcmOpen_compared hlegal hdata hbuf hdraw (ct := []) (tag := p.data) rfl
      (show p.data.length = p.tagBits / 8 by omega) (Nat.zero_le _)
    simp only [eq_comm (b := p.data)] at hu
    exact ⟨u, hu⟩

/-- Settles O60: GMAC_TAG and GMAC_VERIFY start from the same registers but for MODE and DIR, so GMAC_VERIFY compares
with GMAC_TAG's tag. -/
theorem gmacVerifyAcceptsExactlyTheTag : Obligations.GmacVerifyAcceptsExactlyTheTag := by
  intro p s c hc hp htag hiv hivFits haad hdata hbuf hdraw hupdate hcap
  have hlegal : p.Legal s := ⟨⟨c, hc, hp⟩, htag, hiv, hivFits, haad, hdraw⟩
  have hlen := hlegal.tagLen .gmac .enc
  obtain ⟨s1, hw1, h1⟩ := issue_init hlegal (mode := .gmac) (dir := .enc) (by decide)
  obtain ⟨s2, hw2, h2⟩ := issue_encFinal (cap := p.cap) (hw1.ctx hc) rfl (fun _ => rfl) (by decide)
    (show 0 + (p.live .gmac .enc).tagLen.toNat ≤ p.cap.toNat by omega)
  obtain ⟨u, hverify⟩ := gmacVerify_run hlegal hdata hbuf hupdate
  refine ⟨s2, u, (p.live .gmac .enc).tagOf Config.E [], ?_, ?_, hverify⟩
  · rw [gmacTag, h1, h2]
    rfl
  · rw [Live.tagOf_length _ _ _ (hlen.trans_le hlegal.tagBytes_le), hlen]

end Sys2Proof.Machine
end
